-- ==== Sys2Proof/Word.lean ====
section
/-! DEFINITION. The Word of the machine and the index of a general register (00_scope.md R8, R11; 10_state.md R22). -/

namespace Sys2Proof

/-- A Word: an unsigned 16-bit unit of memory, register value, stack entry or instruction (R8, R11). -/
abbrev Word := BitVec 16

/-- A byte of the program image, and of the cells memory is kept in (20_memory.md R54; log 1). -/
abbrev Byte := BitVec 8

/-- The index of one of the eight general registers (10_state.md R22). -/
abbrev RegIdx := Fin 8

end Sys2Proof
end

