-- ==== Sys2Proof/Config.lean ====
section
/-! DEFINITION. The fixed parameters of the hardware (00_scope.md R6) and the default of its one open parameter (R7). -/

namespace Sys2Proof.Config

/-- MEM_WORDS: Words of memory, addresses 0 to 32767 (R6, R50). -/
@[simp] abbrev memWords : Nat := 32768

/-- The bytes those Words take in the image's layout (MAX_IMAGE_BYTES, R6). -/
@[simp] abbrev memBytes : Nat := 65536

/-- MODULUS of ADD and MULT (R6). -/
@[simp] abbrev modulus : Nat := 32768

/-- VALUE_MASK of the results of AND, OR and NOT (R6). -/
@[simp] abbrev valueMask : Word := 0x7FFF

/-- LITERAL_MAX: the largest literal operand (R6). -/
@[simp] abbrev literalMax : Nat := 32767

/-- REGREF_BASE: the operand Word that denotes register 0 (R6). -/
@[simp] abbrev regrefBase : Nat := 32768

/-- REGREF_MAX: the operand Word that denotes register 7 (R6). -/
@[simp] abbrev regrefMax : Nat := 32775

/-- NOPCODES: the opcodes are 0 to 21 (R6, R84). -/
@[simp] abbrev nOpcodes : Nat := 22

/-- RESET_PC (R6). -/
@[simp] abbrev resetPc : Word := 0

/-- POP_EMPTY_SENTINEL: what POP writes on an empty stack (R6, R134). -/
@[simp] abbrev popEmptySentinel : Word := 0xFFFF

/-- The default of STACK_CAPACITY: unbounded (R7, decision D11; log 13). -/
@[simp] abbrev defaultStackCapacity : Option Nat := none

end Sys2Proof.Config
end

