-- ==== Sys2Proof/Syntax.lean ====
section
/-! DEFINITION. The instruction set: one constructor per row of the opcode table (30_encoding.md R74), over operands as the
resolver classifies them (R76). -/

namespace Sys2Proof

/-- What the operand resolver makes of an operand Word (30_encoding.md R76): a literal with no writable backing, a reference
to a register, or an invalid Word. An instruction may hold an operand that is illegal in its place; the step reports it
(R103; log 18). -/
inductive Operand where
  | lit (v : Word)
  | reg (i : RegIdx)
  | bad (w : Word)
deriving DecidableEq, Repr

/-- The role of an operand (30_encoding.md R79): a write target must be a register, a read operand may be a literal or a register. -/
inductive Role where
  | write
  | read
deriving DecidableEq, Repr

/-- The 22 instructions, operands in the order a, b, c (30_encoding.md R74, R79). -/
inductive Instr where
  | halt
  | set  (a b : Operand)
  | push (a : Operand)
  | pop  (a : Operand)
  | eq   (a b c : Operand)
  | gt   (a b c : Operand)
  | jmp  (a : Operand)
  | jt   (a b : Operand)
  | jf   (a b : Operand)
  | add  (a b c : Operand)
  | mult (a b c : Operand)
  | mod  (a b c : Operand)
  | and  (a b c : Operand)
  | or   (a b c : Operand)
  | not  (a b : Operand)
  | rmem (a b : Operand)
  | wmem (a b : Operand)
  | call (a : Operand)
  | ret
  | out  (a : Operand)
  | inp  (a : Operand)
  | noop
deriving DecidableEq, Repr

/-- The operands of an instruction in argument order, each with its role (the table of 30_encoding.md R79). -/
def Instr.operands : Instr → List (Role × Operand)
  | .halt       => []
  | .set a b    => [(.write, a), (.read, b)]
  | .push a     => [(.read, a)]
  | .pop a      => [(.write, a)]
  | .eq a b c   => [(.write, a), (.read, b), (.read, c)]
  | .gt a b c   => [(.write, a), (.read, b), (.read, c)]
  | .jmp a      => [(.read, a)]
  | .jt a b     => [(.read, a), (.read, b)]
  | .jf a b     => [(.read, a), (.read, b)]
  | .add a b c  => [(.write, a), (.read, b), (.read, c)]
  | .mult a b c => [(.write, a), (.read, b), (.read, c)]
  | .mod a b c  => [(.write, a), (.read, b), (.read, c)]
  | .and a b c  => [(.write, a), (.read, b), (.read, c)]
  | .or a b c   => [(.write, a), (.read, b), (.read, c)]
  | .not a b    => [(.write, a), (.read, b)]
  | .rmem a b   => [(.write, a), (.read, b)]
  | .wmem a b   => [(.read, a), (.read, b)]
  | .call a     => [(.read, a)]
  | .ret        => []
  | .out a      => [(.read, a)]
  | .inp a      => [(.write, a)]
  | .noop       => []

/-- The number of operand Words of an instruction (R70). -/
def Instr.arity (i : Instr) : Nat := i.operands.length

/-- The register an instruction names as its write target, if any (30_encoding.md R79; 10_state.md R24). -/
def Instr.target? (i : Instr) : Option RegIdx :=
  match i.operands with
  | (.write, .reg r) :: _ => some r
  | _ => none

end Sys2Proof
end

