-- ==== Sys2Proof/WellFormed.lean ====
section
/-! DEFINITION. Which instructions are legal: the operand checks of 30_encoding.md R76 to R79 and R83, as a Bool. -/

namespace Sys2Proof

/-- An operand that some operand Word resolves to: a literal is 0..32767, an invalid Word is 32776..65535 (R76). A term
that is not canonical stands for no Word (log 21). -/
def Operand.canonical : Operand → Bool
  | .lit v => decide (v.toNat ≤ Config.literalMax)
  | .reg _ => true
  | .bad w => decide (Config.regrefMax < w.toNat)

/-- A canonical operand is legal in a role: a write target is a register reference (R79), a read operand is no invalid Word (R78). -/
def Operand.legalIn : Role → Operand → Bool
  | .write, .reg _ => true
  | .write, _      => false
  | .read, .bad _  => false
  | .read, _       => true

/-- Every operand stands for an operand Word. -/
def Instr.encodable (i : Instr) : Bool := i.operands.all fun o => o.2.canonical

/-- Well formed: every operand stands for an operand Word and is legal in its role. -/
def Instr.wellFormed (i : Instr) : Bool := i.operands.all fun o => o.2.canonical && o.2.legalIn o.1

end Sys2Proof
end

