-- ==== Sys2Proof/Decode.lean ====
section
/-! DEFINITION. The operand resolver and the decoder (30_encoding.md R70 to R84), the encoder written from the same tables,
and the host's view of the decoder on a table word. -/

namespace Sys2Proof

/-! ## The operand resolver (R76) -/

/-- `Resolve(w)` of R76: a literal, a register reference or an invalid Word. The index is `w - 32768`, which for a register
reference equals its value modulo 8 (R77); an invalid Word is never reduced. -/
def Operand.resolve (w : Word) : Operand :=
  if w.toNat ≤ Config.literalMax then .lit w
  else if w.toNat ≤ Config.regrefMax then .reg ⟨(w.toNat - Config.regrefBase) % 8, Nat.mod_lt _ (by decide)⟩
  else .bad w

/-- The operand Word an operand stands for (R71, R77): what a fault reports as `fault_raw` and what the image holds. -/
def Operand.word : Operand → Word
  | .lit v => v
  | .reg i => BitVec.ofNat 16 (Config.regrefBase + i.val)
  | .bad w => w

/-! ## The decoder (R81, R82) -/

/-- Why the decoder gives no instruction: the opcode Word is outside 0..21 (R82), or Word number `k` of the instruction is
missing (Word 0 is the opcode, R70). -/
inductive DecodeError where
  | unknownOpcode (w : Word)
  | truncated (k : Nat)
deriving DecidableEq, Repr

/-- Takes one operand Word (format F1, R71). -/
def decodeF1 (f : Operand → Instr) : List Word → Except DecodeError (Instr × List Word)
  | a :: rest => .ok (f (.resolve a), rest)
  | []        => .error (.truncated 1)

/-- Takes two operand Words (format F2, R71). -/
def decodeF2 (f : Operand → Operand → Instr) : List Word → Except DecodeError (Instr × List Word)
  | a :: b :: rest => .ok (f (.resolve a) (.resolve b), rest)
  | [_]            => .error (.truncated 2)
  | []             => .error (.truncated 1)

/-- Takes three operand Words (format F3, R71). -/
def decodeF3 (f : Operand → Operand → Operand → Instr) : List Word → Except DecodeError (Instr × List Word)
  | a :: b :: c :: rest => .ok (f (.resolve a) (.resolve b) (.resolve c), rest)
  | [_, _]              => .error (.truncated 3)
  | [_]                 => .error (.truncated 2)
  | []                  => .error (.truncated 1)

/-- The decoder: the instruction at the head of a list of Words and the Words after it. The opcode is compared as a whole
Word (R73) and before any operand Word is looked at (R82); the numbers are those of R74. -/
def decode : List Word → Except DecodeError (Instr × List Word)
  | [] => .error (.truncated 0)
  | op :: rest =>
    match op.toNat with
    | 0  => .ok (.halt, rest)
    | 1  => decodeF2 .set rest
    | 2  => decodeF1 .push rest
    | 3  => decodeF1 .pop rest
    | 4  => decodeF3 .eq rest
    | 5  => decodeF3 .gt rest
    | 6  => decodeF1 .jmp rest
    | 7  => decodeF2 .jt rest
    | 8  => decodeF2 .jf rest
    | 9  => decodeF3 .add rest
    | 10 => decodeF3 .mult rest
    | 11 => decodeF3 .mod rest
    | 12 => decodeF3 .and rest
    | 13 => decodeF3 .or rest
    | 14 => decodeF2 .not rest
    | 15 => decodeF2 .rmem rest
    | 16 => decodeF2 .wmem rest
    | 17 => decodeF1 .call rest
    | 18 => .ok (.ret, rest)
    | 19 => decodeF1 .out rest
    | 20 => decodeF1 .inp rest
    | 21 => .ok (.noop, rest)
    | _  => .error (.unknownOpcode op)

/-! ## The encoder (R70, R71, R74) -/

/-- The opcode Word of an instruction (the table of R74). -/
def Instr.opcode : Instr → Word
  | .halt     => 0
  | .set ..   => 1
  | .push ..  => 2
  | .pop ..   => 3
  | .eq ..    => 4
  | .gt ..    => 5
  | .jmp ..   => 6
  | .jt ..    => 7
  | .jf ..    => 8
  | .add ..   => 9
  | .mult ..  => 10
  | .mod ..   => 11
  | .and ..   => 12
  | .or ..    => 13
  | .not ..   => 14
  | .rmem ..  => 15
  | .wmem ..  => 16
  | .call ..  => 17
  | .ret      => 18
  | .out ..   => 19
  | .inp ..   => 20
  | .noop     => 21

/-- The operand Words of an instruction, in argument order. -/
def Instr.operandWords (i : Instr) : List Word := i.operands.map fun o => o.2.word

/-- The Words of an instruction: the opcode, then the operands (R70). -/
def encode (i : Instr) : List Word := i.opcode :: i.operandWords

/-! ## The decoder on a word of spec/opcode_table.json -/

/-- The `n` 16-bit Words that a number holds, the first in its least significant bits. -/
def wordsOfNat (w : Nat) : Nat → List Word
  | 0     => []
  | n + 1 => BitVec.ofNat 16 w :: wordsOfNat (w / 65536) n

/-- The four Words (the longest instruction, R71) that a table word of `nbits` bits stands for, every bit above `nbits` zero. -/
def tableWords (nbits w : Nat) : List Word := wordsOfNat (w % 2 ^ nbits) 4

/-- The instruction the decoder reads from a table word. -/
def decodeTableWord (nbits w : Nat) : Option Instr :=
  match decode (tableWords nbits w) with
  | .ok (i, _) => some i
  | .error _   => none

end Sys2Proof
end

