-- ==== Sys2Proof/Machine/Memory.lean ====
section
/-! DEFINITION. The memory: a canonical list of byte cells in the image's layout (log 1), read and written by whole Words
(20_memory.md R50 to R56). Word `a` stands at byte addresses `2a` (low byte) and `2a + 1` (high byte), as the image lays it
out (R54); nothing in the machine reads or writes less than a Word (R51). -/

namespace Sys2Proof.Machine

/-- Memory: cells with strictly rising addresses and no zero byte. -/
abbrev Memory := List Host.Cell

namespace Memory

/-- What an unlisted address reads as: zero, the content R41 and R241 give every Word no image covers (log 2). -/
abbrev unlisted : Byte := 0

/-- The byte at a byte address. -/
def readByte : Memory → Nat → Byte
  | [], _ => unlisted
  | (k, b) :: m, a => if a = k then b else readByte m a

/-- The cells with one byte replaced, in canonical form again. -/
def writeByte : Memory → Nat → Byte → Memory
  | [], a, v => if v = unlisted then [] else [(a, v)]
  | (k, b) :: m, a, v =>
    if a < k then (if v = unlisted then (k, b) :: m else (a, v) :: (k, b) :: m)
    else if a = k then (if v = unlisted then m else (a, v) :: m)
    else (k, b) :: writeByte m a v

/-- `MemRead(a, 1)` of R9: the Word at word address `a` (R54 gives the order of its bytes). -/
def readWord (m : Memory) (a : Nat) : Word := m.readByte (2 * a + 1) ++ m.readByte (2 * a)

/-- `MemWrite(a, 1, v)` of R9: replaces the Word at word address `a`. -/
def writeWord (m : Memory) (a : Nat) (v : Word) : Memory :=
  (m.writeByte (2 * a) (v.extractLsb' 0 8)).writeByte (2 * a + 1) (v.extractLsb' 8 8)

/-- The consecutive Words from word address `a` on, at most `n`, ending where memory ends (R53, R55). -/
def wordsFrom (m : Memory) (a : Nat) : Nat → List Word
  | 0     => []
  | n + 1 => if a < Config.memWords then m.readWord a :: wordsFrom m (a + 1) n else []

/-- Stores consecutive Words from word address `a` on; a Word that would stand outside memory is dropped. -/
def writeWords (m : Memory) (a : Nat) : List Word → Memory
  | []      => m
  | w :: ws => writeWords (if a < Config.memWords then m.writeWord a w else m) (a + 1) ws

/-- The canonical form from byte address `lo` on. -/
def wfFrom : Nat → Memory → Bool
  | _, [] => true
  | lo, (k, b) :: m => decide (lo ≤ k) && decide (k < Config.memBytes) && decide (b ≠ unlisted) && wfFrom (k + 1) m

/-- The canonical form: byte addresses strictly rising and inside memory, no entry equal to what an unlisted address reads as. -/
def wf (m : Memory) : Bool := wfFrom 0 m

/-- The memory that holds the given bytes from byte address `k` on and zeros elsewhere. -/
def ofBytes : Nat → List Byte → Memory
  | _, [] => []
  | k, b :: bs => if b = unlisted then ofBytes (k + 1) bs else (k, b) :: ofBytes (k + 1) bs

end Memory
end Sys2Proof.Machine
end

