-- ==== Sys2Proof/Machine/State.lean ====
section
/-! DEFINITION. The state of the machine (10_state.md R20 to R41), the two ways a step can give no next state, and the state
right after reset. Each field's docstring names the rule that gives it. -/

namespace Sys2Proof.Machine

/-- The run state (10_state.md R28). -/
inductive RunState where
  | running
  | halted
  | faulted
  | inputEnded
deriving DecidableEq, Repr

/-- The reason in the fault record (10_state.md R27; 60_exceptions.md R211). Code 7 is never written, so it has no constructor. -/
inductive FaultReason where
  | none
  | unknownOpcode
  | invalidRegister
  | fetchOutOfRange
  | dataOutOfRange
  | divideByZero
  | stackOverflow
deriving DecidableEq, Repr

/-- The fault record `(reason, fault_pc, fault_raw)` (10_state.md R27). -/
structure FaultRecord where
  reason : FaultReason
  pc     : Word
  raw    : Word
deriving DecidableEq, Repr

/-- An answer of the input interface: a character code 0..255 or EOF (10_state.md R38). -/
inductive InputAnswer where
  | char (c : Byte)
  | eof
deriving DecidableEq, Repr

/-- A trace record `(p, opcode Word, operand Words, trace_depth)` (60_exceptions.md R228). -/
structure TraceRecord where
  pc       : Word
  opcode   : Word
  operands : List Word
  depth    : Int
deriving DecidableEq, Repr

/-- The whole state. The first eight fields are the spec's state (R20); the next two are its inputs that a step reads; the
last four are the model's own record of the interfaces (R109, R228; logs 7 and 8). -/
structure State where
  /-- `mem`, 32768 Words (R20, R34). -/
  mem : Memory
  /-- `x[0..7]` (R22). -/
  regs : Vector Word 8
  /-- `stack`, the top entry first (R32; log 3). -/
  stack : List Word
  /-- `pc` (R25). -/
  pc : Word
  /-- `run` (R28). -/
  run : RunState
  /-- `fault` (R27). -/
  fault : FaultRecord
  /-- `in_wait` (R35). -/
  inWait : Bool
  /-- `trace_depth` (R20, R228). -/
  traceDepth : Int
  /-- `trace_enable`, an input of the control interface (R40; log 9). -/
  traceEnable : Bool
  /-- STACK_CAPACITY; `none` is unbounded (R7, R32; log 13). -/
  stackCapacity : Option Nat
  /-- The answers the input interface has ready, the next one first (R38; log 7). -/
  input : List InputAnswer
  /-- The answers consumed so far, the oldest first (R109; log 7). -/
  consumed : List InputAnswer
  /-- The Words emitted so far, the oldest first (R39, R109; log 8). -/
  output : List Word
  /-- The trace records produced so far, the oldest first (R228; log 8). -/
  trace : List TraceRecord
deriving DecidableEq, Repr

/-- Why there is no next state: the run has ended and the engine takes no step (40_execution_engine.md R100, R108). Raised by
`step` alone, never by the meaning of an instruction. SAFE: the hardware takes no step there either (log 5). The six fault
reasons of R211 are no constructors here: raising one is a next state with `run = faulted` (log 4). -/
inductive Fault where
  /-- The run has ended by HALT, or by RET on an empty stack (R110). Raised by `step`. Safe. -/
  | halted
  /-- The run has ended by one of the six faults of R211. Raised by `step`. Safe. -/
  | faulted
  /-- The run has ended by IN at end of input (R202). Raised by `step`. Safe. -/
  | inputEnded
deriving DecidableEq, Repr

/-- Why an instruction would be given no meaning. -/
inductive Refusal where
  /-- An instruction whose arm of `exec` is not modelled yet. Raised by no arm of this model: every instruction has its
  meaning. Safe. -/
  | notModelled (mnemonic : String)
deriving DecidableEq, Repr

/-- What a meaning and a step answer. -/
abbrev Outcome := Host.Outcome State Fault Refusal

/-- The fault record when nothing has faulted (R41). -/
abbrev FaultRecord.clear : FaultRecord := ⟨.none, 0, 0⟩

/-- The state after reset (10_state.md R41; 70_reset_and_hazards.md R240), memory with nothing listed. `traceEnable`: log 9;
`stackCapacity`: the default of R7; the interfaces' lists: logs 7 and 8. A program is loaded from outside (log 14). -/
def State.reset : State where
  mem           := []
  regs          := Vector.replicate 8 0
  stack         := []
  pc            := Config.resetPc
  run           := .running
  fault         := .clear
  inWait        := false
  traceDepth    := 0
  traceEnable   := false
  stackCapacity := Config.defaultStackCapacity
  input         := []
  consumed      := []
  output        := []
  trace         := []

end Sys2Proof.Machine
end

