-- ==== Sys2Proof/Machine/Ops.lean ====
section
/-! DEFINITION. The named operations over the state that every meaning is written with (00_scope.md R9), raising a fault
(40_execution_engine.md R106; 60_exceptions.md R210) and the trace bookkeeping (R228). -/

namespace Sys2Proof.Machine

namespace State

/-! ## Registers, program counter, memory -/

/-- `x[i]` (R9, R22). -/
def reg (s : State) (i : RegIdx) : Word := s.regs[i.val]'i.isLt

/-- `x[i] <- v` (R9, R23). -/
def setReg (s : State) (i : RegIdx) (v : Word) : State := { s with regs := s.regs.set i.val v i.isLt }

/-- `pc <- target`; any Word is accepted (44_branch.md R153). -/
def setPc (s : State) (target : Word) : State := { s with pc := target }

/-- `next = pc + 1 + arity` (40_execution_engine.md R105). -/
def seqPc (s : State) (arity : Nat) : Word := s.pc + BitVec.ofNat 16 (1 + arity)

/-- `pc <- next`: the sequential commit of an instruction of that arity (R106). -/
def advance (s : State) (arity : Nat) : State := s.setPc (s.seqPc arity)

/-- `MemWrite(addr, 1, v)` (R9). -/
def storeWord (s : State) (addr : Nat) (v : Word) : State := { s with mem := s.mem.writeWord addr v }

/-! ## The stack (10_state.md R32, R33) -/

/-- `Push(v)` (R9). -/
def push (s : State) (v : Word) : State := { s with stack := v :: s.stack }

/-- `Pop()` (R9): the top entry and the state without it; nothing on an empty stack. -/
def pop? (s : State) : Option (Word × State) :=
  match s.stack with
  | []        => none
  | v :: rest => some (v, { s with stack := rest })

/-- `depth = STACK_CAPACITY` (R132, R190): one more entry would exceed the capacity; never with the unbounded default (R32). -/
def stackFull (s : State) : Bool :=
  match s.stackCapacity with
  | none   => false
  | some n => decide (n ≤ s.stack.length)

/-! ## The run state and the interfaces -/

/-- `halt` (R9): `run <- Halted`. -/
def halt (s : State) : State := { s with run := .halted }

/-- `raise Fault(reason, raw)` (R9, R106): nothing of the instruction is committed, `pc` keeps the instruction's address, the
run state becomes Faulted and the fault record is written. There is no handler and no vector, so control goes nowhere, and
there is no return from a fault (60_exceptions.md R210, R223). -/
def raiseFault (s : State) (reason : FaultReason) (raw : Word) : State :=
  { s with run := .faulted, fault := ⟨reason, s.pc, raw⟩ }

/-- `emit(v)` (R9): one transaction on the output interface, carrying the whole Word (10_state.md R39). -/
def emit (s : State) (v : Word) : State := { s with output := s.output ++ [v] }

/-- The IN request without an answer yet: `in_wait` is true and nothing else changes (R35, R201; log 6). -/
def waitInput (s : State) : State := { s with inWait := true }

/-- The input interface answers: the answer is consumed and `in_wait` becomes false (R201, R202). -/
def takeAnswer (s : State) (ans : InputAnswer) (rest : List InputAnswer) : State :=
  { s with inWait := false, input := rest, consumed := s.consumed ++ [ans] }

/-- End of input (R202): the run ends in InputEnded. -/
def endInput (s : State) : State := { s with run := .inputEnded }

/-! ## Tracing (60_exceptions.md R228) -/

/-- `trace_depth` moves by `d`, whether `trace_enable` is set or not: it is not clamped, and `trace_enable` decides only about the
record (R228, decision D22). -/
def traceMove (s : State) (d : Int) : State := { s with traceDepth := s.traceDepth + d }

/-- The step that left this state behind committed an instruction (R106): it raised no fault, is not waiting for input and did
not meet the end of input (log 12). -/
def committed (s : State) : Bool :=
  match s.run with
  | .running    => !s.inWait
  | .halted     => true
  | .faulted    => false
  | .inputEnded => false

/-- The record of instruction `i` executed from state `s` (R228; the depth is the one before the step, log 11). -/
def traceRecord (s : State) (i : Instr) : TraceRecord := ⟨s.pc, i.opcode, i.operandWords, s.traceDepth⟩

/-- The state `t` that instruction `i` left, with its trace record when tracing was enabled and the step committed (R228). -/
def traced (s : State) (i : Instr) (t : State) : State :=
  if s.traceEnable && t.committed then { t with trace := t.trace ++ [s.traceRecord i] } else t

end State

/-- The outcome of a meaning with its trace record added to the next state. -/
def Outcome.traced (s : State) (i : Instr) : Outcome → Outcome
  | .next t    => .next (s.traced i t)
  | .fault r   => .fault r
  | .refused r => .refused r

end Sys2Proof.Machine
end

