-- ==== Sys2Proof/Machine/Alu.lean ====
section
/-! DEFINITION. The ALU (45_arith_logic.md R160): exact unsigned arithmetic on natural numbers, reduced or masked as each rule
says. Every operand value 0..65535 is admitted (R23). -/

namespace Sys2Proof.Machine.Alu

/-- `(b + c) mod 32768` (R161). -/
def add (b c : Word) : Word := BitVec.ofNat 16 ((b.toNat + c.toNat) % Config.modulus)

/-- `(b * c) mod 32768` (R162). -/
def mult (b c : Word) : Word := BitVec.ofNat 16 ((b.toNat * c.toNat) % Config.modulus)

/-- The unsigned remainder, not masked (R163); the divisor is not zero where it is used. -/
def mod (b c : Word) : Word := BitVec.ofNat 16 (b.toNat % c.toNat)

/-- `(b & c) & 0x7FFF` (R164). -/
def and (b c : Word) : Word := (b &&& c) &&& Config.valueMask

/-- `(b | c) & 0x7FFF` (R165). -/
def or (b c : Word) : Word := (b ||| c) &&& Config.valueMask

/-- `(b ^ 0x7FFF) & 0x7FFF`, the 15-bit complement (R166). -/
def not (b : Word) : Word := (b ^^^ 0x7FFF) &&& Config.valueMask

/-- Unsigned equality of 16-bit Words (R140). -/
def eq (b c : Word) : Bool := b == c

/-- Unsigned `b > c` on 16-bit Words (R141). -/
def gt (b c : Word) : Bool := decide (b.toNat > c.toNat)

end Sys2Proof.Machine.Alu
end

