-- ==== Sys2Proof/Machine/Operands.lean ====
section
/-! DEFINITION. The operand forms as a meaning uses them: the check of R103 and the read of R104, in one place, in the order the
meaning names its operands. Each takes what the instruction goes on with once the operand is accepted; an operand that fails
its check raises InvalidRegister with the operand Word and the instruction goes no further (40_execution_engine.md R103;
60_exceptions.md R213). -/

namespace Sys2Proof.Machine.State

/-- `val(o)` (30_encoding.md R76): a literal's Word as it stands (R80) or the register's contents; an invalid Word has none. -/
def value? (s : State) : Operand → Option Word
  | .lit v => some v
  | .reg i => some (s.reg i)
  | .bad _ => none

/-- A read operand (R): its value at the start of the step (R104). -/
def source (s : State) (o : Operand) (k : Word → Outcome) : Outcome :=
  match s.value? o with
  | some v => k v
  | none   => .next (s.raiseFault .invalidRegister o.word)

/-- A write target (W): its register; a register reference in this place is not read (30_encoding.md R79). -/
def target (s : State) (o : Operand) (k : RegIdx → Outcome) : Outcome :=
  match o with
  | .reg i => k i
  | .lit v => .next (s.raiseFault .invalidRegister (Operand.lit v).word)
  | .bad w => .next (s.raiseFault .invalidRegister (Operand.bad w).word)

/-- A data address (46_memory_access.md R180, R181): one of 32768 or more raises DataOutOfRange with the address. -/
def dataAddress (s : State) (addr : Word) (k : Nat → Outcome) : Outcome :=
  if addr.toNat < Config.memWords then k addr.toNat
  else .next (s.raiseFault .dataOutOfRange addr)

/-- A push of `v` (R132, R190): on a full stack it raises StackOverflow with the Word that was to be pushed. -/
def pushing (s : State) (v : Word) (k : State → Outcome) : Outcome :=
  if s.stackFull then .next (s.raiseFault .stackOverflow v) else k (s.push v)

/-- The commit of an instruction with a write target (R106): `x[i] <- v; pc <- next`. -/
def writeBack (s : State) (arity : Nat) (i : RegIdx) (v : Word) : Outcome := .next ((s.setReg i v).advance arity)

/-- The operand checks of R103 over a list of operands with their roles: the first operand that fails, in argument order. -/
def firstIllegal : List (Role × Operand) → Option Operand
  | [] => none
  | (r, o) :: os => if o.legalIn r then firstIllegal os else some o

end Sys2Proof.Machine.State
end

