-- ==== Sys2Proof/Machine/ArithLogic.lean ====
section
/-! DEFINITION. ADD, MULT, MOD, AND, OR and NOT (45_arith_logic.md R160 to R166). -/

namespace Sys2Proof.Machine

/-- ADD a b c (R161). -/
def execAdd (a b c : Operand) (s : State) : Outcome :=
  s.target a fun i => s.source b fun vb => s.source c fun vc => s.writeBack 3 i (Alu.add vb vc)

/-- MULT a b c (R162). -/
def execMult (a b c : Operand) (s : State) : Outcome :=
  s.target a fun i => s.source b fun vb => s.source c fun vc => s.writeBack 3 i (Alu.mult vb vc)

/-- MOD a b c (R163): a zero divisor raises DivideByZero with the operand Word of c, after the operand checks. -/
def execMod (a b c : Operand) (s : State) : Outcome :=
  s.target a fun i => s.source b fun vb => s.source c fun vc =>
    if vc = 0 then .next (s.raiseFault .divideByZero c.word) else s.writeBack 3 i (Alu.mod vb vc)

/-- AND a b c (R164). -/
def execAnd (a b c : Operand) (s : State) : Outcome :=
  s.target a fun i => s.source b fun vb => s.source c fun vc => s.writeBack 3 i (Alu.and vb vc)

/-- OR a b c (R165). -/
def execOr (a b c : Operand) (s : State) : Outcome :=
  s.target a fun i => s.source b fun vb => s.source c fun vc => s.writeBack 3 i (Alu.or vb vc)

/-- NOT a b (R166). -/
def execNot (a b : Operand) (s : State) : Outcome :=
  s.target a fun i => s.source b fun vb => s.writeBack 2 i (Alu.not vb)

end Sys2Proof.Machine
end

