-- ==== Sys2Proof/Machine/Flags.lean ====
section
/-! DEFINITION. The machine has no flags and no condition codes (10_state.md R31). What stands in their place: the Word a
comparison writes into a register (43_compare.md, decision D6) and the test of a Word for zero that JT and JF make. -/

namespace Sys2Proof.Machine

/-- The Word a comparison writes: 1 for true, 0 for false (R31, R140, R141). -/
def truthWord (b : Bool) : Word := if b then 1 else 0

/-- A Word is true when it is not zero (R151, R152). -/
def nonZero (v : Word) : Bool := v != 0

end Sys2Proof.Machine
end

