-- ==== Sys2Proof/Machine/Branch.lean ====
section
/-! DEFINITION. JMP, JT and JF (44_branch.md R150 to R153): absolute targets, any Word accepted into `pc`. -/

namespace Sys2Proof.Machine

/-- JMP a (R150): `pc <- val(a)`. -/
def execJmp (a : Operand) (s : State) : Outcome :=
  s.source a fun v => .next (s.setPc v)

/-- JT a b (R151): `pc <- val(b)` if `val(a) != 0`, else `next`. Both operands are checked, taken or not. -/
def execJt (a b : Operand) (s : State) : Outcome :=
  s.source a fun va => s.source b fun vb => .next (if nonZero va then s.setPc vb else s.advance 2)

/-- JF a b (R152): `pc <- val(b)` if `val(a) == 0`, else `next`. -/
def execJf (a b : Operand) (s : State) : Outcome :=
  s.source a fun va => s.source b fun vb => .next (if nonZero va then s.advance 2 else s.setPc vb)

end Sys2Proof.Machine
end

