-- ==== Sys2Proof/Machine/CallReturn.lean ====
section
/-! DEFINITION. CALL and RET (47_call_return.md R190 to R192). -/

namespace Sys2Proof.Machine

/-- CALL a (R190): `Push(next); pc <- val(a)`, or StackOverflow with `next`; `trace_depth` goes up by 1 (R228). -/
def execCall (a : Operand) (s : State) : Outcome :=
  s.source a fun v => s.pushing (s.seqPc 1) fun t => .next ((t.setPc v).traceMove 1)

/-- RET (R191): `pc <- Pop()`, and `trace_depth` goes down by 1 (R228); on an empty stack `run <- Halted; pc <- next` (R192). -/
def execRet (s : State) : Outcome :=
  match s.pop? with
  | some (v, t) => .next ((t.setPc v).traceMove (-1))
  | none        => .next (s.halt.advance 0)

end Sys2Proof.Machine
end

