-- ==== Sys2Proof/Machine/Compare.lean ====
section
/-! DEFINITION. EQ and GT (43_compare.md R140, R141). -/

namespace Sys2Proof.Machine

/-- EQ a b c (R140): `x[a] <- 1` if `val(b) == val(c)`, else 0. -/
def execEq (a b c : Operand) (s : State) : Outcome :=
  s.target a fun i => s.source b fun vb => s.source c fun vc => s.writeBack 3 i (truthWord (Alu.eq vb vc))

/-- GT a b c (R141): `x[a] <- 1` if `val(b) > val(c)`, unsigned, else 0. -/
def execGt (a b c : Operand) (s : State) : Outcome :=
  s.target a fun i => s.source b fun vb => s.source c fun vc => s.writeBack 3 i (truthWord (Alu.gt vb vc))

end Sys2Proof.Machine
end

