-- ==== Sys2Proof/Machine/HaltNoop.lean ====
section
/-! DEFINITION. HALT and NOOP (41_halt_noop.md R120, R121). -/

namespace Sys2Proof.Machine

/-- HALT (R120): `run <- Halted; pc <- next`. -/
def execHalt (s : State) : Outcome := .next (s.halt.advance 0)

/-- NOOP (R121): `pc <- next`, nothing else. -/
def execNoop (s : State) : Outcome := .next (s.advance 0)

end Sys2Proof.Machine
end

