-- ==== Sys2Proof/Machine/InOut.lean ====
section
/-! DEFINITION. OUT and IN (48_io.md R200 to R202). -/

namespace Sys2Proof.Machine

/-- OUT a (R200): `emit(val(a))`, the whole Word. -/
def execOut (a : Operand) (s : State) : Outcome :=
  s.source a fun v => .next ((s.emit v).advance 1)

/-- IN a (R201): the target is checked before the request; without an answer the step waits and changes only `in_wait`; a
character is written zero-extended; EOF ends the run with `pc` at the IN (R202). -/
def execIn (a : Operand) (s : State) : Outcome :=
  s.target a fun i =>
    match s.input with
    | []              => .next s.waitInput
    | .char c :: rest => (s.takeAnswer (.char c) rest).writeBack 1 i (c.setWidth 16)
    | .eof :: rest    => .next (s.takeAnswer .eof rest).endInput

end Sys2Proof.Machine
end

