-- ==== Sys2Proof/Machine/MemoryAccess.lean ====
section
/-! DEFINITION. RMEM and WMEM (46_memory_access.md R180, R181): the one addressing mode, an operand's value as an absolute Word
address. -/

namespace Sys2Proof.Machine

/-- RMEM a b (R180): `x[a] <- MemRead(val(b), 1)`, the whole Word. -/
def execRmem (a b : Operand) (s : State) : Outcome :=
  s.target a fun i => s.source b fun vb => s.dataAddress vb fun addr => s.writeBack 2 i (s.mem.readWord addr)

/-- WMEM a b (R181): `MemWrite(val(a), 1, val(b))`; a is an address, not a write target. -/
def execWmem (a b : Operand) (s : State) : Outcome :=
  s.source a fun va => s.source b fun vb => s.dataAddress va fun addr => .next ((s.storeWord addr vb).advance 2)

end Sys2Proof.Machine
end

