-- ==== Sys2Proof/Machine/MoveStack.lean ====
section
/-! DEFINITION. SET, PUSH and POP (42_move_stack.md R130 to R134). -/

namespace Sys2Proof.Machine

/-- SET a b (R131): `x[a] <- val(b)`. -/
def execSet (a b : Operand) (s : State) : Outcome :=
  s.target a fun i => s.source b fun v => s.writeBack 2 i v

/-- PUSH a (R132): `Push(val(a))`, or StackOverflow. -/
def execPush (a : Operand) (s : State) : Outcome :=
  s.source a fun v => s.pushing v fun t => .next (t.advance 1)

/-- POP a (R133): `x[a] <- Pop()`; on an empty stack the sentinel 0xFFFF and no fault (R134). -/
def execPop (a : Operand) (s : State) : Outcome :=
  s.target a fun i =>
    match s.pop? with
    | some (v, t) => t.writeBack 1 i v
    | none        => s.writeBack 1 i Config.popEmptySentinel

end Sys2Proof.Machine
end

