-- ==== Sys2Proof/Machine/Fetch.lean ====
section
/-! DEFINITION. The fetch: the opcode Word at `pc`, then the arity Words after it (40_execution_engine.md R101, R102). -/

namespace Sys2Proof.Machine

/-- The Words the fetch at `p` can read: at most four (the longest instruction, 30_encoding.md R71), as far as memory reaches
(20_memory.md R53). The decoder uses only those of its instruction; reading has no side effect (R56; log 17). -/
def fetchWords (m : Memory) (p : Word) : List Word := m.wordsFrom p.toNat 4

/-- The fault a decode error stands for: an unknown opcode is reported with its Word (R101); a Word that cannot be read is
reported with its address, `p + k` for the first missing Word `k` (R101, R102). -/
def fetchFault (p : Word) : DecodeError → FaultReason × Word
  | .unknownOpcode w => (.unknownOpcode, w)
  | .truncated k     => (.fetchOutOfRange, p + BitVec.ofNat 16 k)

/-- `Decode(mem, p)` (30_encoding.md R81): the instruction at `p`, or the fault its fetch raises, in the order of R107. -/
def fetchInstr (m : Memory) (p : Word) : Except (FaultReason × Word) Instr :=
  match decode (fetchWords m p) with
  | .ok (i, _) => .ok i
  | .error e   => .error (fetchFault p e)

/-- The named stop of a terminal run state; a running machine has none (R100, R108). -/
def stopOf : RunState → Option Fault
  | .running    => none
  | .halted     => some .halted
  | .faulted    => some .faulted
  | .inputEnded => some .inputEnded

end Sys2Proof.Machine
end

