-- ==== Sys2Proof/Machine/Step.lean ====
section
/-! DEFINITION. One step of the machine (40_execution_engine.md R100), and a word placed where the next step fetches. -/

namespace Sys2Proof.Machine

/-- `Step()` of R100: only while Running (else no step, R108); fetch and decode, whose faults are raised here; then the
instruction, and its trace record (R228). -/
def step (s : State) : Host.Outcome State Fault Refusal :=
  match stopOf s.run with
  | some r => .fault r
  | none =>
    match fetchInstr s.mem s.pc with
    | .ok i               => Outcome.traced s i (exec i s)
    | .error (reason, raw) => .next (s.raiseFault reason raw)

/-- The state with a table word's Words stored at `pc`, where the next step fetches: it stands for the loader's act (log 14). -/
def State.withFetchWord (s : State) (nbits w : Nat) : State :=
  { s with mem := s.mem.writeWords s.pc.toNat (tableWords nbits w) }

end Sys2Proof.Machine
end

