-- ==== Sys2Proof/Machine/HostInterface.lean ====
section
/-! DEFINITION. What the outside can do to the CORE between steps, and what it can read (10_state.md R29, R36 to R40;
70_reset_and_hazards.md R240 to R243). None of it is part of a step. -/

namespace Sys2Proof.Machine

/-! ## Status (10_state.md R29) -/

/-- The 2-bit code of the run state (R28). -/
def RunState.code : RunState → BitVec 2
  | .running    => 0
  | .halted     => 1
  | .faulted    => 2
  | .inputEnded => 3

/-- The 3-bit code of a fault reason (R27). -/
def FaultReason.code : FaultReason → BitVec 3
  | .none            => 0
  | .unknownOpcode   => 1
  | .invalidRegister => 2
  | .fetchOutOfRange => 3
  | .dataOutOfRange  => 4
  | .divideByZero    => 5
  | .stackOverflow   => 6

/-- STATUS: bits 15..6 zero, bits 5..3 FAULT_REASON, bit 2 IN_WAIT, bits 1..0 RUN (R29). -/
def State.statusWord (s : State) : Word :=
  (0 : BitVec 10) ++ s.fault.reason.code ++ BitVec.ofBool s.inWait ++ s.run.code

/-- FAULT_PC: the `fault_pc`, 0 when the reason is None (R29). -/
def State.faultPcWord (s : State) : Word := if s.fault.reason = .none then 0 else s.fault.pc

/-- FAULT_RAW: the `fault_raw`, 0 when the reason is None (R29). -/
def State.faultRawWord (s : State) : Word := if s.fault.reason = .none then 0 else s.fault.raw

/-! ## The end of a run (40_execution_engine.md R109) -/

/-- What is observed of a run that has ended. -/
structure Observation where
  mem      : Memory
  regs     : Vector Word 8
  stack    : List Word
  pc       : Word
  run      : RunState
  fault    : FaultRecord
  output   : List Word
  consumed : List InputAnswer
deriving DecidableEq, Repr

/-- The observation of a run, once it has ended (R109); a run that goes on has none. -/
def State.observe (s : State) : Option Observation :=
  match s.run with
  | .running => none
  | _ => some ⟨s.mem, s.regs, s.stack, s.pc, s.run, s.fault, s.output, s.consumed⟩

/-! ## Control and input (R38, R40) -/

/-- The host sets `trace_enable` (R40). -/
def State.setTraceEnable (s : State) (b : Bool) : State := { s with traceEnable := b }

/-- The input collaborator has one more answer ready (R38). -/
def State.deliver (s : State) (ans : InputAnswer) : State := { s with input := s.input ++ [ans] }

/-- Reset during operation (R240): every piece of CORE state takes its reset value except memory; a pending IN wait ends
without consuming input. What the host drives (`trace_enable`, STACK_CAPACITY, the pending answers) stays, and the record of
the run starts anew (log 15). -/
def State.applyReset (s : State) : State :=
  { State.reset with
    mem := s.mem, traceEnable := s.traceEnable, stackCapacity := s.stackCapacity, input := s.input }

/-! ## The loader (70_reset_and_hazards.md R241, R242) -/

/-- Why a load starts no run (R241). -/
inductive LoadError where
  | tooLarge
  | oddLength
  | zeroWords
deriving DecidableEq, Repr

/-- `load` (R241): the number of Words and the memory they fill, Word `k` from bytes `2k` and `2k + 1`, zeros after the image;
the checks in the order of log 16. -/
def loadImage (image : List Byte) : Except LoadError (Nat × Memory) :=
  if Config.memBytes < image.length then .error .tooLarge
  else if image.length % 2 ≠ 0 then .error .oddLength
  else if image.length = 0 then .error .zeroWords
  else .ok (image.length / 2, Memory.ofBytes 0 image)

/-- Boot (R242): reset, then a successful load of at least one Word; the run starts from the state it answers. A new run after a
terminal state needs both again (R243). -/
def State.boot (s : State) (image : List Byte) : Except LoadError State :=
  match loadImage image with
  | .ok (_, m) => .ok { s.applyReset with mem := m }
  | .error e   => .error e

end Sys2Proof.Machine
end

