-- ==== Sys2Proof/Safety.lean ====
section
/-! DEFINITION. What claims are stated in: the invariant every step keeps, a run that has not faulted, and the state without its
tracing. -/

namespace Sys2Proof.Machine.State

/-- The invariant of the machine. -/
structure Inv (s : State) : Prop where
  /-- Memory is in canonical form and inside the 32768 Words (20_memory.md R50). -/
  mem_wf : s.mem.wf = true
  /-- The run state is Faulted exactly when the fault record holds a reason (10_state.md R27, R28). -/
  faulted_iff : s.run = .faulted ↔ s.fault.reason ≠ .none
  /-- No reason, no record (10_state.md R29, R41). -/
  clear_record : s.fault.reason = .none → s.fault = .clear
  /-- A fault is precise: `pc` still holds the faulting instruction's address (40_execution_engine.md R106). -/
  fault_pc : s.run = .faulted → s.fault.pc = s.pc
  /-- A capacity is positive (00_scope.md R7) and the stack stays within it (10_state.md R32). -/
  stack_bound : ∀ n, s.stackCapacity = some n → 0 < n ∧ s.stack.length ≤ n
  /-- Only an IN with a legal target waits, and only in a run that goes on (10_state.md R35; 48_io.md R201). -/
  waiting_in : s.inWait = true → s.run = .running ∧ ∃ i, fetchInstr s.mem s.pc = .ok (.inp (.reg i))

/-- A run that no fault has ended. -/
def Safe (s : State) : Prop := s.run ≠ .faulted

/-- The state with its tracing blanked out: two states that agree here differ only in `trace_enable`, `trace_depth` and the trace. -/
def untraced (s : State) : State := { s with traceEnable := false, traceDepth := 0, trace := [] }

end Sys2Proof.Machine.State
end

