-- ==== Sys2Proof/Certificates/Slice0/Obligations.lean ====
section
/-! DEFINITION. The statements for the provers, from the numbered rules of spec/. The statement of an instruction's rule has
three parts: its format (the decoding of its Words and the faults the common step raises for it, R102 and R103), the state it
leaves (every field not written in the new state is as before: that is its frame), and its own faults. -/

namespace Sys2Proof.Rules

open Sys2Proof Sys2Proof.Machine

/-- `raise Fault(reason, raw)` (00_scope.md R9, 40_execution_engine.md R106): only the run state and the fault record change. -/
def Raises (s : State) (o : Outcome) (reason : FaultReason) (raw : Word) : Prop :=
  o = .next { s with run := .faulted, fault := ⟨reason, s.pc, raw⟩ }

/-- The step of an instruction of arity `n` whose Words would pass address 32767 faults (40_execution_engine.md R102): the
first address outside memory is 32768. -/
def FaultsPastMemoryEnd (op : Word) (n : Nat) : Prop :=
  ∀ s : State, s.run = .running → s.pc.toNat < 32768 → s.mem.readWord s.pc.toNat = op → 32768 ≤ s.pc.toNat + n →
    Raises s (step s) .fetchOutOfRange 32768

/-- Format F0 (30_encoding.md R71): one Word. -/
def FormatF0 (op : Word) (i : Instr) : Prop := ∀ rest, decode (op :: rest) = .ok (i, rest)

/-- Format F1: two Words; the operand in its role. -/
def FormatF1 (op : Word) (ra : Role) (f : Operand → Instr) : Prop :=
  (∀ a rest, decode (op :: a :: rest) = .ok (f (.resolve a), rest)) ∧
  (∀ s a, a.legalIn ra = false → Raises s (exec (f a) s) .invalidRegister a.word) ∧
  FaultsPastMemoryEnd op 1

/-- Format F2: three Words; operand a in its role, operand b read; a is checked first. -/
def FormatF2 (op : Word) (ra : Role) (f : Operand → Operand → Instr) : Prop :=
  (∀ a b rest, decode (op :: a :: b :: rest) = .ok (f (.resolve a) (.resolve b), rest)) ∧
  (∀ s a b, (a.legalIn ra = false → Raises s (exec (f a b) s) .invalidRegister a.word) ∧
    (a.legalIn ra = true → b.legalIn .read = false → Raises s (exec (f a b) s) .invalidRegister b.word)) ∧
  FaultsPastMemoryEnd op 2

/-- Format F3: four Words; operand a a write target, b and c read; checked in this order. -/
def FormatF3 (op : Word) (f : Operand → Operand → Operand → Instr) : Prop :=
  (∀ a b c rest, decode (op :: a :: b :: c :: rest) = .ok (f (.resolve a) (.resolve b) (.resolve c), rest)) ∧
  (∀ s a b c, (a.legalIn .write = false → Raises s (exec (f a b c) s) .invalidRegister a.word) ∧
    (a.legalIn .write = true → b.legalIn .read = false → Raises s (exec (f a b c) s) .invalidRegister b.word) ∧
    (a.legalIn .write = true → b.legalIn .read = true → c.legalIn .read = false →
      Raises s (exec (f a b c) s) .invalidRegister c.word)) ∧
  FaultsPastMemoryEnd op 3

/-- The stack can take one more entry (10_state.md R32). -/
def HasRoom (s : State) : Prop := ∀ n, s.stackCapacity = some n → s.stack.length < n

/-- The arities of 30_encoding.md R74, indexed by opcode. -/
def arities : List Nat := [0, 2, 1, 1, 3, 3, 1, 2, 2, 3, 3, 3, 3, 3, 2, 2, 2, 1, 0, 1, 1, 0]

end Sys2Proof.Rules

open Sys2Proof Sys2Proof.Machine Sys2Proof.Rules

/-! ## Encoding, resolver and decoder -/

/-- 30_encoding.md R88, word for word. -/
def Obligations.SpecEncodingExamplesDecode : Prop :=
  decode [9, 32769, 32770, 4] = .ok (.add (.reg 1) (.reg 2) (.lit 4), []) ∧
  decode [19, 65] = .ok (.out (.lit 65), []) ∧
  decode [0] = .ok (.halt, []) ∧
  decode [7, 32768, 3] = .ok (.jt (.reg 0) (.lit 3), []) ∧
  decode [16, 100, 32775] = .ok (.wmem (.lit 100) (.reg 7), [])

/-- 30_encoding.md R76, R77: the three classes of operand Words and the value of an operand. -/
def Obligations.ResolverClassifiesEveryWord : Prop :=
  (∀ w : Word, w.toNat ≤ 32767 → Operand.resolve w = .lit w) ∧
  (∀ (w : Word) (h1 : 32768 ≤ w.toNat) (h2 : w.toNat ≤ 32775),
    Operand.resolve w = .reg ⟨w.toNat - 32768, by omega⟩) ∧
  (∀ w : Word, 32776 ≤ w.toNat → Operand.resolve w = .bad w) ∧
  (∀ (s : State) (v : Word), s.value? (.lit v) = some v) ∧
  (∀ (s : State) (i : RegIdx), s.value? (.reg i) = some (s.regs[i.val]'i.isLt))

/-- 30_encoding.md R82: an undefined opcode is rejected whatever stands after it, nothing included. -/
def Obligations.UndefinedOpcodesAreRejected : Prop :=
  ∀ (op : Word) (rest : List Word), 22 ≤ op.toNat → decode (op :: rest) = .error (.unknownOpcode op)

/-- 30_encoding.md R72 with the arities of R74: the opcode Word alone fixes the length, and every operand Word is admitted. -/
def Obligations.OpcodeAloneFixesTheLength : Prop :=
  ∀ (op : Word) (n : Nat), arities[op.toNat]? = some n → ∀ ws : List Word,
    (n ≤ ws.length → ∃ i, decode (op :: ws) = .ok (i, ws.drop n) ∧ i.opcode = op ∧ i.arity = n) ∧
    (ws.length < n → decode (op :: ws) = .error (.truncated (1 + ws.length)))

/-- Decode and encode agree for every instruction whose operands stand for Words, the illegal ones too, at every value. -/
def Obligations.DecodeOfEncodeIsTheInstruction : Prop :=
  ∀ (i : Instr) (rest : List Word), i.encodable = true → decode (encode i ++ rest) = .ok (i, rest)

/-- The other direction: the Words a decoded instruction came from are its encoding. -/
def Obligations.EncodeOfDecodeIsTheWords : Prop :=
  ∀ (ws : List Word) (i : Instr) (rest : List Word), decode ws = .ok (i, rest) →
    encode i ++ rest = ws ∧ i.encodable = true

/-! ## The step -/

/-- A step runs the decoded instruction (40_execution_engine.md R100, 30_encoding.md R81) and adds its trace record, which is
60_exceptions.md R228: only while `trace_enable` is set and only when the step committed. The record's depth (log 11) and which
steps commit (log 12) are the model's reading. -/
def Obligations.StepRunsTheDecodedInstruction : Prop :=
  ∀ (s : State) (i : Instr) (rest : List Word), s.run = .running → decode (fetchWords s.mem s.pc) = .ok (i, rest) →
    step s = Outcome.traced s i (exec i s)

/-- The same from the Words in memory: where the Words of an instruction stand at `pc`, inside memory, the step runs it. The trace
record is that of R228, with the readings of logs 11 and 12. -/
def Obligations.StepRunsTheInstructionAtPc : Prop :=
  ∀ (s : State) (i : Instr), s.run = .running → i.encodable = true → s.pc.toNat + 1 + i.arity ≤ 32768 →
    (∀ k, k ≤ i.arity → (encode i)[k]? = some (s.mem.readWord (s.pc.toNat + k))) →
    step s = Outcome.traced s i (exec i s)

/-- Every instruction answers a next state in every state: none is refused and none stops the machine without the state the
spec gives it. The outcome form is the model's: that a fault is a next state (log 4, from R106 and R210), and that an IN without
an answer answers the waiting state as a next state (log 6), where the spec has the step still waiting (R107 point 6, R201). -/
def Obligations.EveryInstructionAnswersANextState : Prop := ∀ (i : Instr) (s : State), ∃ t, exec i s = .next t

/-- 40_execution_engine.md R108: once the run has ended the engine takes no step; the model's form of that is that `step` answers
no next state (log 5). That a Running machine always takes one holds at an IN without an answer only by the model's form of the
wait (log 6), where the spec's step is still waiting. -/
def Obligations.EngineStepsExactlyWhileRunning : Prop :=
  ∀ s : State, (∃ t, step s = .next t) ↔ s.run = .running

/-- 40_execution_engine.md R101. -/
def Obligations.OpcodeFetchFaults : Prop :=
  ∀ s : State, s.run = .running →
    (32768 ≤ s.pc.toNat → Raises s (step s) .fetchOutOfRange s.pc) ∧
    (s.pc.toNat < 32768 → 22 ≤ (s.mem.readWord s.pc.toNat).toNat →
      Raises s (step s) .unknownOpcode (s.mem.readWord s.pc.toNat))

/-- 40_execution_engine.md R102: the least address of an operand Word that is outside memory is reported. -/
def Obligations.OperandFetchFaults : Prop :=
  ∀ (s : State) (n k : Nat), s.run = .running → s.pc.toNat < 32768 →
    arities[(s.mem.readWord s.pc.toNat).toNat]? = some n → 1 ≤ k → k ≤ n → 32768 ≤ s.pc.toNat + k →
    (∀ j, 1 ≤ j → j < k → s.pc.toNat + j < 32768) →
    Raises s (step s) .fetchOutOfRange (BitVec.ofNat 16 (s.pc.toNat + k))

/-- 40_execution_engine.md R103: the first operand that is illegal in its role is the one reported, and nothing else changes. -/
def Obligations.FirstIllegalOperandIsReported : Prop :=
  ∀ (s : State) (i : Instr) (before after : List (Role × Operand)) (r : Role) (o : Operand),
    i.operands = before ++ (r, o) :: after → (∀ p ∈ before, p.2.legalIn p.1 = true) → o.legalIn r = false →
    Raises s (exec i s) .invalidRegister o.word

/-- 40_execution_engine.md R107, point (5): with legal operands, only MOD, RMEM, WMEM, PUSH and CALL fault, each with its own reason. -/
def Obligations.LegalOperandsLeaveOneOwnCheck : Prop :=
  ∀ (s t : State) (i : Instr), (∀ p ∈ i.operands, p.2.legalIn p.1 = true) → s.run = .running → exec i s = .next t →
    t.run = .faulted →
    (t.fault.reason = .divideByZero ∧ ∃ a b c, i = .mod a b c) ∨
    (t.fault.reason = .dataOutOfRange ∧ ∃ a b, i = .rmem a b ∨ i = .wmem a b) ∨
    (t.fault.reason = .stackOverflow ∧ ∃ a, i = .push a ∨ i = .call a)

/-- 60_exceptions.md R210: a fault is precise and terminal; it saves the fault record and nothing else. -/
def Obligations.FaultsArePreciseAndTerminal : Prop :=
  ∀ s t : State, step s = .next t → t.run = .faulted →
    (∃ reason raw, reason ≠ .none ∧ t = { s with run := .faulted, fault := ⟨reason, s.pc, raw⟩ }) ∧
    ∀ u, step t ≠ .next u

/-- 40_execution_engine.md R110. -/
def Obligations.RunEndsInExactlyTheseWays : Prop :=
  ∀ s t : State, step s = .next t → t.run ≠ .running →
    (t.run = .halted ∧ (fetchInstr s.mem s.pc = .ok .halt ∨ fetchInstr s.mem s.pc = .ok .ret ∧ s.stack = [])) ∨
    (t.run = .faulted ∧ t.fault.reason ≠ .none) ∨
    (t.run = .inputEnded ∧ ∃ i rest, fetchInstr s.mem s.pc = .ok (.inp (.reg i)) ∧ s.input = .eof :: rest)

/-- 40_execution_engine.md R105, 10_state.md R26: a fetched instruction stands inside memory, so `next` does not wrap. -/
def Obligations.FetchedInstructionsStandInsideMemory : Prop :=
  ∀ (s : State) (i : Instr), fetchInstr s.mem s.pc = .ok i →
    s.pc.toNat + 1 + i.arity ≤ 32768 ∧ (s.seqPc i.arity).toNat = s.pc.toNat + 1 + i.arity

/-! ## What one step changes -/

/-- 10_state.md R24, R31: the frame of the instructions that write a register and of those that do not. When `exec` answers a
next state, every register but the write target is unchanged; only WMEM changes a byte of memory; and the inputs of a run are
unchanged. -/
def Obligations.OnlyTheWriteTargetRegisterChanges : Prop :=
  ∀ (s t : State) (i : Instr), exec i s = .next t →
    (∀ j, i.target? ≠ some j → t.reg j = s.reg j) ∧
    ((∀ a b, i ≠ .wmem a b) → ∀ k, t.mem.readByte k = s.mem.readByte k) ∧
    t.traceEnable = s.traceEnable ∧ t.stackCapacity = s.stackCapacity

/-- 20_memory.md R50, R55: only a WMEM changes memory, and it stores one Word at the value of its first operand. -/
def Obligations.OnlyWmemChangesMemory : Prop :=
  ∀ s t : State, step s = .next t →
    t.mem = s.mem ∨
    ∃ a b addr v, fetchInstr s.mem s.pc = .ok (.wmem a b) ∧ s.value? a = some addr ∧ s.value? b = some v ∧
      addr.toNat < 32768 ∧ t.mem = s.mem.writeWord addr.toNat v

/-- 10_state.md R32, R33: a step pushes one entry (PUSH, CALL), removes the top entry (POP, RET) or leaves the stack. -/
def Obligations.StackChangesByOneEntryOnTop : Prop :=
  ∀ s t : State, step s = .next t →
    t.stack = s.stack ∨
    (∃ a v, t.stack = v :: s.stack ∧
      (fetchInstr s.mem s.pc = .ok (.push a) ∨ fetchInstr s.mem s.pc = .ok (.call a))) ∨
    (∃ v, s.stack = v :: t.stack ∧
      ((∃ i, fetchInstr s.mem s.pc = .ok (.pop (.reg i))) ∨ fetchInstr s.mem s.pc = .ok .ret))

/-- 40_execution_engine.md R106: at most one transaction on the input and output interfaces, by IN and by OUT alone. -/
def Obligations.OnlyInAndOutUseTheInterfaces : Prop :=
  ∀ s t : State, step s = .next t →
    (t.output = s.output ∨
      ∃ a v, fetchInstr s.mem s.pc = .ok (.out a) ∧ s.value? a = some v ∧ t.output = s.output ++ [v]) ∧
    (t.input = s.input ∧ t.consumed = s.consumed ∨
      ∃ i ans, fetchInstr s.mem s.pc = .ok (.inp (.reg i)) ∧ s.input = ans :: t.input ∧
        t.consumed = s.consumed ++ [ans])

/-! ## Invariant, reset and boot -/

/-- Every step keeps the invariant of Safety.lean. -/
def Obligations.EveryStepKeepsTheInvariant : Prop := ∀ s t : State, s.Inv → step s = .next t → t.Inv

/-- The invariant holds at reset, of every booted machine, and of a reset that follows. -/
def Obligations.ResetAndBootMeetTheInvariant : Prop :=
  State.reset.Inv ∧ (∀ s : State, s.Inv → s.applyReset.Inv) ∧
  (∀ (s t : State) (image : List Byte), s.Inv → s.boot image = .ok t → t.Inv)

/-- 10_state.md R41: the values after reset in any state (memory is not written, R240, and no input is consumed), and what a
load after it leaves: the reset values, with memory holding the image's Words and zeros. -/
def Obligations.ResetSetsTheSpecsValues : Prop :=
  (∀ s : State, s.applyReset.pc = 0 ∧ (∀ i, s.applyReset.reg i = 0) ∧ s.applyReset.stack = [] ∧
    s.applyReset.run = .running ∧ s.applyReset.fault = ⟨.none, 0, 0⟩ ∧ s.applyReset.inWait = false ∧
    s.applyReset.traceDepth = 0 ∧ s.applyReset.mem = s.mem ∧ s.applyReset.input = s.input) ∧
  (∀ (s t : State) (image : List Byte), s.boot image = .ok t →
    t = { s.applyReset with mem := t.mem } ∧
    ∀ k, t.mem.readWord k = if k < image.length / 2
      then (image.getD (2 * k) 0).setWidth 16 ||| (image.getD (2 * k + 1) 0).setWidth 16 <<< 8 else 0)

/-- 70_reset_and_hazards.md R241: what the loader accepts and rejects, and what memory holds after a load; a rejected load
starts no run. -/
def Obligations.LoaderFillsMemoryFromTheImage : Prop :=
  ∀ image : List Byte,
    (65536 < image.length → image.length % 2 = 0 → loadImage image = .error .tooLarge) ∧
    (image.length ≤ 65536 → image.length % 2 = 1 → loadImage image = .error .oddLength) ∧
    (image.length = 0 → loadImage image = .error .zeroWords) ∧
    (65536 < image.length ∨ image.length % 2 = 1 ∨ image.length = 0 →
      ∀ s : State, ∃ e, s.boot image = .error e) ∧
    (image.length ≤ 65536 → image.length % 2 = 0 → image.length ≠ 0 →
      ∃ m, loadImage image = .ok (image.length / 2, m) ∧
        (∀ s : State, s.boot image = .ok { s.applyReset with mem := m }) ∧
        (∀ k, k < image.length / 2 → m.readWord k =
          (image.getD (2 * k) 0).setWidth 16 ||| (image.getD (2 * k + 1) 0).setWidth 16 <<< 8) ∧
        (∀ k, image.length / 2 ≤ k → m.readWord k = 0))

/-- 10_state.md R29, with the codes of R27 and R28. -/
def Obligations.StatusWordsShowTheState : Prop :=
  ∀ s : State,
    s.statusWord.toNat =
      (match s.run with | .running => 0 | .halted => 1 | .faulted => 2 | .inputEnded => 3) +
      (if s.inWait then 4 else 0) +
      8 * (match s.fault.reason with
        | .none => 0 | .unknownOpcode => 1 | .invalidRegister => 2 | .fetchOutOfRange => 3
        | .dataOutOfRange => 4 | .divideByZero => 5 | .stackOverflow => 6) ∧
    (s.fault.reason = .none → s.faultPcWord = 0 ∧ s.faultRawWord = 0) ∧
    (s.fault.reason ≠ .none → s.faultPcWord = s.fault.pc ∧ s.faultRawWord = s.fault.raw) ∧
    s.applyReset.statusWord = 0 ∧ s.applyReset.faultPcWord = 0 ∧ s.applyReset.faultRawWord = 0

/-! ## Tracing and waiting -/

/-- 10_state.md R40: tracing changes no architectural state. Two states that differ only in tracing take the same step. -/
def Obligations.TracingIsInvisible : Prop :=
  ∀ s s' t : State, s.untraced = s'.untraced → step s = .next t →
    ∃ t', step s' = .next t' ∧ t.untraced = t'.untraced

/-- 60_exceptions.md R228: a committed step leaves one record while tracing, and no other step leaves one. The record's depth
(log 11) and which steps commit (log 12) are the model's reading. -/
def Obligations.CommittedStepsLeaveOneTraceRecord : Prop :=
  ∀ (s t : State) (i : Instr), s.run = .running → fetchInstr s.mem s.pc = .ok i → step s = .next t →
    t.trace =
      if s.traceEnable = true ∧ (t.run = .running ∧ t.inWait = false ∨ t.run = .halted)
      then s.trace ++ [⟨s.pc, i.opcode, i.operandWords, s.traceDepth⟩] else s.trace

/-- 60_exceptions.md R228: `trace_depth` is one more after each committed CALL (one that did not fault), one less after each RET
that pops, tracing on or off, and unchanged by every other step. -/
def Obligations.TraceDepthFollowsCallAndRet : Prop :=
  ∀ s t : State, step s = .next t →
    (∀ a, fetchInstr s.mem s.pc = .ok (.call a) → t.run ≠ .faulted → t.traceDepth = s.traceDepth + 1) ∧
    (fetchInstr s.mem s.pc = .ok .ret → s.stack ≠ [] → t.traceDepth = s.traceDepth - 1) ∧
    ((∀ a, fetchInstr s.mem s.pc = .ok (.call a) → t.run = .faulted) →
      (fetchInstr s.mem s.pc = .ok .ret → s.stack = []) → t.traceDepth = s.traceDepth)

/-- 10_state.md R35, 48_io.md R201: a step whose IN has no answer sets `in_wait` and nothing else, and so does every waiting step
after it, until an answer is delivered. -/
def Obligations.WaitingChangesOnlyInWait : Prop :=
  ∀ (s : State) (i : RegIdx), s.run = .running → fetchInstr s.mem s.pc = .ok (.inp (.reg i)) → s.input = [] →
    step s = .next { s with inWait := true } ∧
    step { s with inWait := true } = .next { s with inWait := true } ∧
    ∀ c, ∃ t, step (State.deliver { s with inWait := true } (.char c)) = .next t ∧
      t.inWait = false ∧ t.reg i = c.setWidth 16 ∧ t.pc = s.pc + 2

/-! ## Programs of two instructions and laws of the ALU -/

/-- 95_test_vectors.md W4: the stack's round trip. -/
def Obligations.PushThenPopGivesTheValueBack : Prop :=
  ∀ (s t : State) (a : Operand) (v : Word) (i : RegIdx), s.value? a = some v → HasRoom s →
    exec (.push a) s = .next t →
    exec (.pop (.reg i)) t = .next { s with regs := s.regs.set i.val v i.isLt, pc := s.pc + 4 }

/-- 95_test_vectors.md W5: a RET on the stack a CALL left returns to the instruction after the CALL, and the depth nets to zero. -/
def Obligations.CallThenRetReturnsAfterTheCall : Prop :=
  ∀ (s t t' : State) (a : Operand) (v : Word), s.value? a = some v → HasRoom s → exec (.call a) s = .next t →
    t'.stack = t.stack → t'.traceDepth = t.traceDepth →
    ∃ u, exec .ret t' = .next u ∧ u.pc = s.pc + 2 ∧ u.stack = s.stack ∧ u.traceDepth = s.traceDepth ∧ u.run = t'.run

/-- 45_arith_logic.md R160: the range of the results. -/
def Obligations.AluResultsStayInRange : Prop :=
  ∀ (s : State) (i : RegIdx) (b c : Operand) (vb vc : Word), s.value? b = some vb → s.value? c = some vc →
    (∀ f ∈ [Instr.add, Instr.mult, Instr.and, Instr.or],
      ∃ t, exec (f (.reg i) b c) s = .next t ∧ (t.reg i).toNat ≤ 32767) ∧
    (∃ t, exec (.not (.reg i) b) s = .next t ∧ (t.reg i).toNat ≤ 32767) ∧
    (vb.toNat ≤ 32767 → vc.toNat ≤ 32767 → vc ≠ 0 →
      ∃ t, exec (.mod (.reg i) b c) s = .next t ∧ (t.reg i).toNat ≤ 32767)

/-- 60_exceptions.md R216: with the unbounded default no step raises StackOverflow; with a finite capacity only a full stack does. -/
def Obligations.StackOverflowNeedsAFullStack : Prop :=
  ∀ s t : State, step s = .next t → t.run = .faulted → t.fault.reason = .stackOverflow →
    (∃ a, fetchInstr s.mem s.pc = .ok (.push a) ∨ fetchInstr s.mem s.pc = .ok (.call a)) ∧
    ∃ n, s.stackCapacity = some n ∧ n ≤ s.stack.length

/-! ## The instructions, one statement each -/

/-- 41_halt_noop.md R120. -/
def Obligations.HaltEndsTheRun : Prop :=
  FormatF0 0 .halt ∧ ∀ s : State, exec .halt s = .next { s with run := .halted, pc := s.pc + 1 }

/-- 41_halt_noop.md R121. -/
def Obligations.NoopAdvances : Prop :=
  FormatF0 21 .noop ∧ ∀ s : State, exec .noop s = .next { s with pc := s.pc + 1 }

/-- 42_move_stack.md R131. -/
def Obligations.SetCopiesTheValue : Prop :=
  FormatF2 1 .write .set ∧
  ∀ (s : State) (i : RegIdx) (b : Operand) (v : Word), s.value? b = some v →
    exec (.set (.reg i) b) s = .next { s with regs := s.regs.set i.val v i.isLt, pc := s.pc + 3 }

/-- 42_move_stack.md R132. -/
def Obligations.PushPutsTheValueOnTop : Prop :=
  FormatF1 2 .read .push ∧
  ∀ (s : State) (a : Operand) (v : Word), s.value? a = some v →
    (HasRoom s → exec (.push a) s = .next { s with stack := v :: s.stack, pc := s.pc + 2 }) ∧
    (s.stackCapacity = some s.stack.length → Raises s (exec (.push a) s) .stackOverflow v)

/-- 42_move_stack.md R133, R134. -/
def Obligations.PopTakesTheTopOrTheSentinel : Prop :=
  FormatF1 3 .write .pop ∧
  ∀ (s : State) (i : RegIdx),
    (∀ v rest, s.stack = v :: rest →
      exec (.pop (.reg i)) s = .next { s with regs := s.regs.set i.val v i.isLt, stack := rest, pc := s.pc + 2 }) ∧
    (s.stack = [] →
      exec (.pop (.reg i)) s = .next { s with regs := s.regs.set i.val 65535 i.isLt, pc := s.pc + 2 })

/-- 43_compare.md R140. -/
def Obligations.EqWritesTheComparison : Prop :=
  FormatF3 4 .eq ∧
  ∀ (s : State) (i : RegIdx) (b c : Operand) (vb vc : Word), s.value? b = some vb → s.value? c = some vc →
    exec (.eq (.reg i) b c) s =
      .next { s with regs := s.regs.set i.val (if vb.toNat = vc.toNat then 1 else 0) i.isLt, pc := s.pc + 4 }

/-- 43_compare.md R141. -/
def Obligations.GtWritesTheComparison : Prop :=
  FormatF3 5 .gt ∧
  ∀ (s : State) (i : RegIdx) (b c : Operand) (vb vc : Word), s.value? b = some vb → s.value? c = some vc →
    exec (.gt (.reg i) b c) s =
      .next { s with regs := s.regs.set i.val (if vb.toNat > vc.toNat then 1 else 0) i.isLt, pc := s.pc + 4 }

/-- 44_branch.md R150. -/
def Obligations.JmpSetsThePc : Prop :=
  FormatF1 6 .read .jmp ∧
  (∀ (s : State) (a : Operand) (v : Word), s.value? a = some v → exec (.jmp a) s = .next { s with pc := v }) ∧
  (∀ (s t : State) (a : Operand) (v : Word), s.run = .running → s.value? a = some v → 32768 ≤ v.toNat →
    exec (.jmp a) s = .next t → step t = .next { t with run := .faulted, fault := ⟨.fetchOutOfRange, v, v⟩ })

/-- 44_branch.md R151. -/
def Obligations.JtJumpsWhenNotZero : Prop :=
  FormatF2 7 .read .jt ∧
  ∀ (s : State) (a b : Operand) (va vb : Word), s.value? a = some va → s.value? b = some vb →
    exec (.jt a b) s = .next { s with pc := if va.toNat ≠ 0 then vb else s.pc + 3 }

/-- 44_branch.md R152. -/
def Obligations.JfJumpsWhenZero : Prop :=
  FormatF2 8 .read .jf ∧
  ∀ (s : State) (a b : Operand) (va vb : Word), s.value? a = some va → s.value? b = some vb →
    exec (.jf a b) s = .next { s with pc := if va.toNat = 0 then vb else s.pc + 3 }

/-- 45_arith_logic.md R161. -/
def Obligations.AddIsModulo32768 : Prop :=
  FormatF3 9 .add ∧
  ∀ (s : State) (i : RegIdx) (b c : Operand) (vb vc : Word), s.value? b = some vb → s.value? c = some vc →
    exec (.add (.reg i) b c) s =
      .next { s with regs := s.regs.set i.val (BitVec.ofNat 16 ((vb.toNat + vc.toNat) % 32768)) i.isLt, pc := s.pc + 4 }

/-- 45_arith_logic.md R162. -/
def Obligations.MultIsModulo32768 : Prop :=
  FormatF3 10 .mult ∧
  ∀ (s : State) (i : RegIdx) (b c : Operand) (vb vc : Word), s.value? b = some vb → s.value? c = some vc →
    exec (.mult (.reg i) b c) s =
      .next { s with regs := s.regs.set i.val (BitVec.ofNat 16 ((vb.toNat * vc.toNat) % 32768)) i.isLt, pc := s.pc + 4 }

/-- 45_arith_logic.md R163: the unmasked remainder, or DivideByZero with the operand Word of c. -/
def Obligations.ModIsTheRemainderOrFaults : Prop :=
  FormatF3 11 .mod ∧
  ∀ (s : State) (i : RegIdx) (b c : Operand) (vb vc : Word), s.value? b = some vb → s.value? c = some vc →
    (vc ≠ 0 → exec (.mod (.reg i) b c) s =
      .next { s with regs := s.regs.set i.val (BitVec.ofNat 16 (vb.toNat % vc.toNat)) i.isLt, pc := s.pc + 4 }) ∧
    (vc = 0 → Raises s (exec (.mod (.reg i) b c) s) .divideByZero c.word)

/-- 45_arith_logic.md R164. -/
def Obligations.AndIsMasked : Prop :=
  FormatF3 12 .and ∧
  ∀ (s : State) (i : RegIdx) (b c : Operand) (vb vc : Word), s.value? b = some vb → s.value? c = some vc →
    exec (.and (.reg i) b c) s =
      .next { s with regs := s.regs.set i.val ((vb &&& vc) &&& 0x7FFF) i.isLt, pc := s.pc + 4 }

/-- 45_arith_logic.md R165. -/
def Obligations.OrIsMasked : Prop :=
  FormatF3 13 .or ∧
  ∀ (s : State) (i : RegIdx) (b c : Operand) (vb vc : Word), s.value? b = some vb → s.value? c = some vc →
    exec (.or (.reg i) b c) s =
      .next { s with regs := s.regs.set i.val ((vb ||| vc) &&& 0x7FFF) i.isLt, pc := s.pc + 4 }

/-- 45_arith_logic.md R166: both forms the rule gives. -/
def Obligations.NotIsTheFifteenBitComplement : Prop :=
  FormatF2 14 .write .not ∧
  ∀ (s : State) (i : RegIdx) (b : Operand) (vb : Word), s.value? b = some vb →
    exec (.not (.reg i) b) s =
      .next { s with regs := s.regs.set i.val ((vb ^^^ 0x7FFF) &&& 0x7FFF) i.isLt, pc := s.pc + 3 } ∧
    (vb ^^^ 0x7FFF) &&& 0x7FFF = ~~~vb &&& 0x7FFF

/-- 46_memory_access.md R180. -/
def Obligations.RmemReadsTheWord : Prop :=
  FormatF2 15 .write .rmem ∧
  ∀ (s : State) (i : RegIdx) (b : Operand) (addr : Word), s.value? b = some addr →
    (addr.toNat < 32768 → exec (.rmem (.reg i) b) s =
      .next { s with regs := s.regs.set i.val (s.mem.readWord addr.toNat) i.isLt, pc := s.pc + 3 }) ∧
    (32768 ≤ addr.toNat → Raises s (exec (.rmem (.reg i) b) s) .dataOutOfRange addr)

/-- 46_memory_access.md R181, with the frame of memory byte by byte: that the stored bytes are `2 * addr` and `2 * addr + 1`, and
that memory keeps a canonical form, is the model's layout (log 1); the spec gives the CORE no byte order (R54). -/
def Obligations.WmemStoresTheWord : Prop :=
  FormatF2 16 .read .wmem ∧
  ∀ (s : State) (a b : Operand) (addr v : Word), s.value? a = some addr → s.value? b = some v →
    (addr.toNat < 32768 → ∃ m, exec (.wmem a b) s = .next { s with mem := m, pc := s.pc + 3 } ∧
      (s.mem.wf = true → m.wf = true ∧ m.readWord addr.toNat = v ∧
        (∀ k, k ≠ addr.toNat → m.readWord k = s.mem.readWord k) ∧
        ∀ k, k ≠ 2 * addr.toNat → k ≠ 2 * addr.toNat + 1 → m.readByte k = s.mem.readByte k)) ∧
    (32768 ≤ addr.toNat → Raises s (exec (.wmem a b) s) .dataOutOfRange addr)

/-- 47_call_return.md R190, whose `trace_depth` moves by 60_exceptions.md R228, tracing on or off. -/
def Obligations.CallPushesNextAndJumps : Prop :=
  FormatF1 17 .read .call ∧
  ∀ (s : State) (a : Operand) (v : Word), s.value? a = some v →
    (HasRoom s →
      exec (.call a) s = .next { s with stack := (s.pc + 2) :: s.stack, pc := v, traceDepth := s.traceDepth + 1 }) ∧
    (s.stackCapacity = some s.stack.length → Raises s (exec (.call a) s) .stackOverflow (s.pc + 2))

/-- 47_call_return.md R191, R192; `trace_depth` moves by 60_exceptions.md R228, tracing on or off. -/
def Obligations.RetPopsThePcOrHalts : Prop :=
  FormatF0 18 .ret ∧
  ∀ s : State,
    (∀ v rest, s.stack = v :: rest →
      exec .ret s = .next { s with stack := rest, pc := v, traceDepth := s.traceDepth - 1 }) ∧
    (s.stack = [] → exec .ret s = .next { s with run := .halted, pc := s.pc + 1 })

/-- 48_io.md R200. -/
def Obligations.OutEmitsTheWholeWord : Prop :=
  FormatF1 19 .read .out ∧
  ∀ (s : State) (a : Operand) (v : Word), s.value? a = some v →
    exec (.out a) s = .next { s with output := s.output ++ [v], pc := s.pc + 2 }

/-- 48_io.md R201, R202: a character, no answer yet, end of input. The answers as lists, the consumed EOF included, are the model's
form (log 7), and so is the step that answers the waiting state when no answer is ready (log 6). -/
def Obligations.InTakesACharacterWaitsOrEnds : Prop :=
  FormatF1 20 .write .inp ∧
  ∀ (s : State) (i : RegIdx),
    (∀ (c : Byte) rest, s.input = .char c :: rest → exec (.inp (.reg i)) s =
      .next { s with regs := s.regs.set i.val (BitVec.ofNat 16 c.toNat) i.isLt, inWait := false, input := rest,
                     consumed := s.consumed ++ [.char c], pc := s.pc + 2 }) ∧
    (s.input = [] → exec (.inp (.reg i)) s = .next { s with inWait := true }) ∧
    (∀ rest, s.input = .eof :: rest → exec (.inp (.reg i)) s =
      .next { s with run := .inputEnded, inWait := false, input := rest, consumed := s.consumed ++ [.eof] })
end

