-- ==== Sys2Proof/Laws/Decode.lean ====
section
/-! SUPPORT. The laws of the operand resolver, and the reading equations of the decoder. -/

namespace Sys2Proof

/-! ## Resolver and operand Words (30_encoding.md R76, R77) -/

theorem Operand.resolve_lit {w : Word} (h : w.toNat ≤ Config.literalMax) : Operand.resolve w = .lit w := by
  simp [Operand.resolve, h]

theorem Operand.resolve_reg (i : RegIdx) : Operand.resolve (Operand.reg i).word = .reg i := by
  revert i; decide

theorem Operand.resolve_bad {w : Word} (h : Config.regrefMax < w.toNat) : Operand.resolve w = .bad w := by
  simp at h
  have h1 : ¬ w.toNat ≤ 32767 := by omega
  have h2 : ¬ w.toNat ≤ 32775 := by omega
  simp [Operand.resolve, h1, h2]

/-- An operand Word is got back from what it resolves to. -/
theorem Operand.word_resolve (w : Word) : (Operand.resolve w).word = w := by
  unfold Operand.resolve
  split
  · rfl
  · next h =>
    split
    · next h' =>
      simp at h h'
      apply BitVec.eq_of_toNat_eq
      simp [Operand.word]
      omega
    · rfl

/-- What a Word resolves to is canonical. -/
theorem Operand.canonical_resolve (w : Word) : (Operand.resolve w).canonical = true := by
  unfold Operand.resolve
  split
  · next h => simpa [Operand.canonical] using h
  · next h =>
    split
    · rfl
    · next h' => simp at h h'; simp [Operand.canonical]; omega

/-- A canonical operand is what its operand Word resolves to. -/
theorem Operand.resolve_word {o : Operand} (h : o.canonical = true) : Operand.resolve o.word = o := by
  cases o with
  | lit v => exact Operand.resolve_lit (by simpa [Operand.canonical, Operand.word] using h)
  | reg i => exact Operand.resolve_reg i
  | bad w => exact Operand.resolve_bad (by simpa [Operand.canonical, Operand.word] using h)

/-! ## Legality (30_encoding.md R78, R79) -/

@[simp] theorem Operand.legalIn_write_reg (i : RegIdx) : Operand.legalIn .write (.reg i) = true := rfl
@[simp] theorem Operand.legalIn_write_lit (v : Word) : Operand.legalIn .write (.lit v) = false := rfl
@[simp] theorem Operand.legalIn_write_bad (w : Word) : Operand.legalIn .write (.bad w) = false := rfl
@[simp] theorem Operand.legalIn_read_lit (v : Word) : Operand.legalIn .read (.lit v) = true := rfl
@[simp] theorem Operand.legalIn_read_reg (i : RegIdx) : Operand.legalIn .read (.reg i) = true := rfl
@[simp] theorem Operand.legalIn_read_bad (w : Word) : Operand.legalIn .read (.bad w) = false := rfl

/-- What is legal as a write target is a register. -/
theorem Operand.eq_reg_of_legalIn_write {o : Operand} (h : o.legalIn .write = true) : ∃ i, o = .reg i := by
  cases o with
  | reg i => exact ⟨i, rfl⟩
  | lit v => cases h
  | bad w => cases h

/-! ## Formats -/

@[simp] theorem decodeF1_cons (f : Operand → Instr) (a : Word) (rest : List Word) :
    decodeF1 f (a :: rest) = .ok (f (.resolve a), rest) := rfl

@[simp] theorem decodeF2_cons (f : Operand → Operand → Instr) (a b : Word) (rest : List Word) :
    decodeF2 f (a :: b :: rest) = .ok (f (.resolve a) (.resolve b), rest) := rfl

@[simp] theorem decodeF3_cons (f : Operand → Operand → Operand → Instr) (a b c : Word) (rest : List Word) :
    decodeF3 f (a :: b :: c :: rest) = .ok (f (.resolve a) (.resolve b) (.resolve c), rest) := rfl

/-- A well-formed instruction is encodable. -/
theorem Instr.encodable_of_wellFormed {i : Instr} (h : i.wellFormed = true) : i.encodable = true := by
  simp only [Instr.wellFormed, Instr.encodable, List.all_eq_true] at *
  intro o ho
  have := h o ho
  simp only [Bool.and_eq_true] at this
  exact this.1

end Sys2Proof
end

