-- ==== Sys2Proof/Laws/State.lean ====
section
/-! SUPPORT. One lemma per field per update of the state, so that no later proof unfolds a record update. -/

namespace Sys2Proof.Machine.State

variable (s : State)

/-! ## setReg -/

@[simp] theorem setReg_mem (i : RegIdx) (v : Word) : (s.setReg i v).mem = s.mem := rfl
@[simp] theorem setReg_regs (i : RegIdx) (v : Word) : (s.setReg i v).regs = s.regs.set i.val v i.isLt := rfl
@[simp] theorem setReg_stack (i : RegIdx) (v : Word) : (s.setReg i v).stack = s.stack := rfl
@[simp] theorem setReg_pc (i : RegIdx) (v : Word) : (s.setReg i v).pc = s.pc := rfl
@[simp] theorem setReg_run (i : RegIdx) (v : Word) : (s.setReg i v).run = s.run := rfl
@[simp] theorem setReg_fault (i : RegIdx) (v : Word) : (s.setReg i v).fault = s.fault := rfl
@[simp] theorem setReg_inWait (i : RegIdx) (v : Word) : (s.setReg i v).inWait = s.inWait := rfl
@[simp] theorem setReg_traceDepth (i : RegIdx) (v : Word) : (s.setReg i v).traceDepth = s.traceDepth := rfl
@[simp] theorem setReg_traceEnable (i : RegIdx) (v : Word) : (s.setReg i v).traceEnable = s.traceEnable := rfl
@[simp] theorem setReg_stackCapacity (i : RegIdx) (v : Word) : (s.setReg i v).stackCapacity = s.stackCapacity := rfl
@[simp] theorem setReg_input (i : RegIdx) (v : Word) : (s.setReg i v).input = s.input := rfl
@[simp] theorem setReg_consumed (i : RegIdx) (v : Word) : (s.setReg i v).consumed = s.consumed := rfl
@[simp] theorem setReg_output (i : RegIdx) (v : Word) : (s.setReg i v).output = s.output := rfl
@[simp] theorem setReg_trace (i : RegIdx) (v : Word) : (s.setReg i v).trace = s.trace := rfl

/-! ## setPc -/

@[simp] theorem setPc_mem (t : Word) : (s.setPc t).mem = s.mem := rfl
@[simp] theorem setPc_regs (t : Word) : (s.setPc t).regs = s.regs := rfl
@[simp] theorem setPc_stack (t : Word) : (s.setPc t).stack = s.stack := rfl
@[simp] theorem setPc_pc (t : Word) : (s.setPc t).pc = t := rfl
@[simp] theorem setPc_run (t : Word) : (s.setPc t).run = s.run := rfl
@[simp] theorem setPc_fault (t : Word) : (s.setPc t).fault = s.fault := rfl
@[simp] theorem setPc_inWait (t : Word) : (s.setPc t).inWait = s.inWait := rfl
@[simp] theorem setPc_traceDepth (t : Word) : (s.setPc t).traceDepth = s.traceDepth := rfl
@[simp] theorem setPc_traceEnable (t : Word) : (s.setPc t).traceEnable = s.traceEnable := rfl
@[simp] theorem setPc_stackCapacity (t : Word) : (s.setPc t).stackCapacity = s.stackCapacity := rfl
@[simp] theorem setPc_input (t : Word) : (s.setPc t).input = s.input := rfl
@[simp] theorem setPc_consumed (t : Word) : (s.setPc t).consumed = s.consumed := rfl
@[simp] theorem setPc_output (t : Word) : (s.setPc t).output = s.output := rfl
@[simp] theorem setPc_trace (t : Word) : (s.setPc t).trace = s.trace := rfl

/-! ## advance -/

@[simp] theorem advance_mem (n : Nat) : (s.advance n).mem = s.mem := rfl
@[simp] theorem advance_regs (n : Nat) : (s.advance n).regs = s.regs := rfl
@[simp] theorem advance_stack (n : Nat) : (s.advance n).stack = s.stack := rfl
@[simp] theorem advance_pc (n : Nat) : (s.advance n).pc = s.seqPc n := rfl
@[simp] theorem advance_run (n : Nat) : (s.advance n).run = s.run := rfl
@[simp] theorem advance_fault (n : Nat) : (s.advance n).fault = s.fault := rfl
@[simp] theorem advance_inWait (n : Nat) : (s.advance n).inWait = s.inWait := rfl
@[simp] theorem advance_traceDepth (n : Nat) : (s.advance n).traceDepth = s.traceDepth := rfl
@[simp] theorem advance_traceEnable (n : Nat) : (s.advance n).traceEnable = s.traceEnable := rfl
@[simp] theorem advance_stackCapacity (n : Nat) : (s.advance n).stackCapacity = s.stackCapacity := rfl
@[simp] theorem advance_input (n : Nat) : (s.advance n).input = s.input := rfl
@[simp] theorem advance_consumed (n : Nat) : (s.advance n).consumed = s.consumed := rfl
@[simp] theorem advance_output (n : Nat) : (s.advance n).output = s.output := rfl
@[simp] theorem advance_trace (n : Nat) : (s.advance n).trace = s.trace := rfl

/-! ## storeWord -/

@[simp] theorem storeWord_mem (a : Nat) (v : Word) : (s.storeWord a v).mem = s.mem.writeWord a v := rfl
@[simp] theorem storeWord_regs (a : Nat) (v : Word) : (s.storeWord a v).regs = s.regs := rfl
@[simp] theorem storeWord_stack (a : Nat) (v : Word) : (s.storeWord a v).stack = s.stack := rfl
@[simp] theorem storeWord_pc (a : Nat) (v : Word) : (s.storeWord a v).pc = s.pc := rfl
@[simp] theorem storeWord_run (a : Nat) (v : Word) : (s.storeWord a v).run = s.run := rfl
@[simp] theorem storeWord_fault (a : Nat) (v : Word) : (s.storeWord a v).fault = s.fault := rfl
@[simp] theorem storeWord_inWait (a : Nat) (v : Word) : (s.storeWord a v).inWait = s.inWait := rfl
@[simp] theorem storeWord_traceDepth (a : Nat) (v : Word) : (s.storeWord a v).traceDepth = s.traceDepth := rfl
@[simp] theorem storeWord_traceEnable (a : Nat) (v : Word) : (s.storeWord a v).traceEnable = s.traceEnable := rfl
@[simp] theorem storeWord_stackCapacity (a : Nat) (v : Word) : (s.storeWord a v).stackCapacity = s.stackCapacity := rfl
@[simp] theorem storeWord_input (a : Nat) (v : Word) : (s.storeWord a v).input = s.input := rfl
@[simp] theorem storeWord_consumed (a : Nat) (v : Word) : (s.storeWord a v).consumed = s.consumed := rfl
@[simp] theorem storeWord_output (a : Nat) (v : Word) : (s.storeWord a v).output = s.output := rfl
@[simp] theorem storeWord_trace (a : Nat) (v : Word) : (s.storeWord a v).trace = s.trace := rfl

/-! ## push -/

@[simp] theorem push_mem (v : Word) : (s.push v).mem = s.mem := rfl
@[simp] theorem push_regs (v : Word) : (s.push v).regs = s.regs := rfl
@[simp] theorem push_stack (v : Word) : (s.push v).stack = v :: s.stack := rfl
@[simp] theorem push_pc (v : Word) : (s.push v).pc = s.pc := rfl
@[simp] theorem push_run (v : Word) : (s.push v).run = s.run := rfl
@[simp] theorem push_fault (v : Word) : (s.push v).fault = s.fault := rfl
@[simp] theorem push_inWait (v : Word) : (s.push v).inWait = s.inWait := rfl
@[simp] theorem push_traceDepth (v : Word) : (s.push v).traceDepth = s.traceDepth := rfl
@[simp] theorem push_traceEnable (v : Word) : (s.push v).traceEnable = s.traceEnable := rfl
@[simp] theorem push_stackCapacity (v : Word) : (s.push v).stackCapacity = s.stackCapacity := rfl
@[simp] theorem push_input (v : Word) : (s.push v).input = s.input := rfl
@[simp] theorem push_consumed (v : Word) : (s.push v).consumed = s.consumed := rfl
@[simp] theorem push_output (v : Word) : (s.push v).output = s.output := rfl
@[simp] theorem push_trace (v : Word) : (s.push v).trace = s.trace := rfl

/-! ## halt -/

@[simp] theorem halt_mem : s.halt.mem = s.mem := rfl
@[simp] theorem halt_regs : s.halt.regs = s.regs := rfl
@[simp] theorem halt_stack : s.halt.stack = s.stack := rfl
@[simp] theorem halt_pc : s.halt.pc = s.pc := rfl
@[simp] theorem halt_run : s.halt.run = .halted := rfl
@[simp] theorem halt_fault : s.halt.fault = s.fault := rfl
@[simp] theorem halt_inWait : s.halt.inWait = s.inWait := rfl
@[simp] theorem halt_traceDepth : s.halt.traceDepth = s.traceDepth := rfl
@[simp] theorem halt_traceEnable : s.halt.traceEnable = s.traceEnable := rfl
@[simp] theorem halt_stackCapacity : s.halt.stackCapacity = s.stackCapacity := rfl
@[simp] theorem halt_input : s.halt.input = s.input := rfl
@[simp] theorem halt_consumed : s.halt.consumed = s.consumed := rfl
@[simp] theorem halt_output : s.halt.output = s.output := rfl
@[simp] theorem halt_trace : s.halt.trace = s.trace := rfl

/-! ## raiseFault -/

@[simp] theorem raiseFault_mem (r : FaultReason) (w : Word) : (s.raiseFault r w).mem = s.mem := rfl
@[simp] theorem raiseFault_regs (r : FaultReason) (w : Word) : (s.raiseFault r w).regs = s.regs := rfl
@[simp] theorem raiseFault_stack (r : FaultReason) (w : Word) : (s.raiseFault r w).stack = s.stack := rfl
@[simp] theorem raiseFault_pc (r : FaultReason) (w : Word) : (s.raiseFault r w).pc = s.pc := rfl
@[simp] theorem raiseFault_run (r : FaultReason) (w : Word) : (s.raiseFault r w).run = .faulted := rfl
@[simp] theorem raiseFault_fault (r : FaultReason) (w : Word) : (s.raiseFault r w).fault = ⟨r, s.pc, w⟩ := rfl
@[simp] theorem raiseFault_inWait (r : FaultReason) (w : Word) : (s.raiseFault r w).inWait = s.inWait := rfl
@[simp] theorem raiseFault_traceDepth (r : FaultReason) (w : Word) : (s.raiseFault r w).traceDepth = s.traceDepth := rfl
@[simp] theorem raiseFault_traceEnable (r : FaultReason) (w : Word) : (s.raiseFault r w).traceEnable = s.traceEnable := rfl
@[simp] theorem raiseFault_stackCapacity (r : FaultReason) (w : Word) : (s.raiseFault r w).stackCapacity = s.stackCapacity := rfl
@[simp] theorem raiseFault_input (r : FaultReason) (w : Word) : (s.raiseFault r w).input = s.input := rfl
@[simp] theorem raiseFault_consumed (r : FaultReason) (w : Word) : (s.raiseFault r w).consumed = s.consumed := rfl
@[simp] theorem raiseFault_output (r : FaultReason) (w : Word) : (s.raiseFault r w).output = s.output := rfl
@[simp] theorem raiseFault_trace (r : FaultReason) (w : Word) : (s.raiseFault r w).trace = s.trace := rfl

/-! ## emit -/

@[simp] theorem emit_mem (v : Word) : (s.emit v).mem = s.mem := rfl
@[simp] theorem emit_regs (v : Word) : (s.emit v).regs = s.regs := rfl
@[simp] theorem emit_stack (v : Word) : (s.emit v).stack = s.stack := rfl
@[simp] theorem emit_pc (v : Word) : (s.emit v).pc = s.pc := rfl
@[simp] theorem emit_run (v : Word) : (s.emit v).run = s.run := rfl
@[simp] theorem emit_fault (v : Word) : (s.emit v).fault = s.fault := rfl
@[simp] theorem emit_inWait (v : Word) : (s.emit v).inWait = s.inWait := rfl
@[simp] theorem emit_traceDepth (v : Word) : (s.emit v).traceDepth = s.traceDepth := rfl
@[simp] theorem emit_traceEnable (v : Word) : (s.emit v).traceEnable = s.traceEnable := rfl
@[simp] theorem emit_stackCapacity (v : Word) : (s.emit v).stackCapacity = s.stackCapacity := rfl
@[simp] theorem emit_input (v : Word) : (s.emit v).input = s.input := rfl
@[simp] theorem emit_consumed (v : Word) : (s.emit v).consumed = s.consumed := rfl
@[simp] theorem emit_output (v : Word) : (s.emit v).output = s.output ++ [v] := rfl
@[simp] theorem emit_trace (v : Word) : (s.emit v).trace = s.trace := rfl

/-! ## waitInput -/

@[simp] theorem waitInput_mem : s.waitInput.mem = s.mem := rfl
@[simp] theorem waitInput_regs : s.waitInput.regs = s.regs := rfl
@[simp] theorem waitInput_stack : s.waitInput.stack = s.stack := rfl
@[simp] theorem waitInput_pc : s.waitInput.pc = s.pc := rfl
@[simp] theorem waitInput_run : s.waitInput.run = s.run := rfl
@[simp] theorem waitInput_fault : s.waitInput.fault = s.fault := rfl
@[simp] theorem waitInput_inWait : s.waitInput.inWait = true := rfl
@[simp] theorem waitInput_traceDepth : s.waitInput.traceDepth = s.traceDepth := rfl
@[simp] theorem waitInput_traceEnable : s.waitInput.traceEnable = s.traceEnable := rfl
@[simp] theorem waitInput_stackCapacity : s.waitInput.stackCapacity = s.stackCapacity := rfl
@[simp] theorem waitInput_input : s.waitInput.input = s.input := rfl
@[simp] theorem waitInput_consumed : s.waitInput.consumed = s.consumed := rfl
@[simp] theorem waitInput_output : s.waitInput.output = s.output := rfl
@[simp] theorem waitInput_trace : s.waitInput.trace = s.trace := rfl

/-! ## takeAnswer -/

@[simp] theorem takeAnswer_mem (a : InputAnswer) (r : List InputAnswer) : (s.takeAnswer a r).mem = s.mem := rfl
@[simp] theorem takeAnswer_regs (a : InputAnswer) (r : List InputAnswer) : (s.takeAnswer a r).regs = s.regs := rfl
@[simp] theorem takeAnswer_stack (a : InputAnswer) (r : List InputAnswer) : (s.takeAnswer a r).stack = s.stack := rfl
@[simp] theorem takeAnswer_pc (a : InputAnswer) (r : List InputAnswer) : (s.takeAnswer a r).pc = s.pc := rfl
@[simp] theorem takeAnswer_run (a : InputAnswer) (r : List InputAnswer) : (s.takeAnswer a r).run = s.run := rfl
@[simp] theorem takeAnswer_fault (a : InputAnswer) (r : List InputAnswer) : (s.takeAnswer a r).fault = s.fault := rfl
@[simp] theorem takeAnswer_inWait (a : InputAnswer) (r : List InputAnswer) : (s.takeAnswer a r).inWait = false := rfl
@[simp] theorem takeAnswer_traceDepth (a : InputAnswer) (r : List InputAnswer) : (s.takeAnswer a r).traceDepth = s.traceDepth := rfl
@[simp] theorem takeAnswer_traceEnable (a : InputAnswer) (r : List InputAnswer) : (s.takeAnswer a r).traceEnable = s.traceEnable := rfl
@[simp] theorem takeAnswer_stackCapacity (a : InputAnswer) (r : List InputAnswer) : (s.takeAnswer a r).stackCapacity = s.stackCapacity := rfl
@[simp] theorem takeAnswer_input (a : InputAnswer) (r : List InputAnswer) : (s.takeAnswer a r).input = r := rfl
@[simp] theorem takeAnswer_consumed (a : InputAnswer) (r : List InputAnswer) : (s.takeAnswer a r).consumed = s.consumed ++ [a] := rfl
@[simp] theorem takeAnswer_output (a : InputAnswer) (r : List InputAnswer) : (s.takeAnswer a r).output = s.output := rfl
@[simp] theorem takeAnswer_trace (a : InputAnswer) (r : List InputAnswer) : (s.takeAnswer a r).trace = s.trace := rfl

/-! ## endInput -/

@[simp] theorem endInput_mem : s.endInput.mem = s.mem := rfl
@[simp] theorem endInput_regs : s.endInput.regs = s.regs := rfl
@[simp] theorem endInput_stack : s.endInput.stack = s.stack := rfl
@[simp] theorem endInput_pc : s.endInput.pc = s.pc := rfl
@[simp] theorem endInput_run : s.endInput.run = .inputEnded := rfl
@[simp] theorem endInput_fault : s.endInput.fault = s.fault := rfl
@[simp] theorem endInput_inWait : s.endInput.inWait = s.inWait := rfl
@[simp] theorem endInput_traceDepth : s.endInput.traceDepth = s.traceDepth := rfl
@[simp] theorem endInput_traceEnable : s.endInput.traceEnable = s.traceEnable := rfl
@[simp] theorem endInput_stackCapacity : s.endInput.stackCapacity = s.stackCapacity := rfl
@[simp] theorem endInput_input : s.endInput.input = s.input := rfl
@[simp] theorem endInput_consumed : s.endInput.consumed = s.consumed := rfl
@[simp] theorem endInput_output : s.endInput.output = s.output := rfl
@[simp] theorem endInput_trace : s.endInput.trace = s.trace := rfl

/-! ## traceMove -/

@[simp] theorem traceMove_mem (d : Int) : (s.traceMove d).mem = s.mem := rfl
@[simp] theorem traceMove_regs (d : Int) : (s.traceMove d).regs = s.regs := rfl
@[simp] theorem traceMove_stack (d : Int) : (s.traceMove d).stack = s.stack := rfl
@[simp] theorem traceMove_pc (d : Int) : (s.traceMove d).pc = s.pc := rfl
@[simp] theorem traceMove_run (d : Int) : (s.traceMove d).run = s.run := rfl
@[simp] theorem traceMove_fault (d : Int) : (s.traceMove d).fault = s.fault := rfl
@[simp] theorem traceMove_inWait (d : Int) : (s.traceMove d).inWait = s.inWait := rfl
@[simp] theorem traceMove_traceDepth (d : Int) : (s.traceMove d).traceDepth = s.traceDepth + d := rfl
@[simp] theorem traceMove_traceEnable (d : Int) : (s.traceMove d).traceEnable = s.traceEnable := rfl
@[simp] theorem traceMove_stackCapacity (d : Int) : (s.traceMove d).stackCapacity = s.stackCapacity := rfl
@[simp] theorem traceMove_input (d : Int) : (s.traceMove d).input = s.input := rfl
@[simp] theorem traceMove_consumed (d : Int) : (s.traceMove d).consumed = s.consumed := rfl
@[simp] theorem traceMove_output (d : Int) : (s.traceMove d).output = s.output := rfl
@[simp] theorem traceMove_trace (d : Int) : (s.traceMove d).trace = s.trace := rfl

/-! ## traced: only the trace can change -/

@[simp] theorem traced_mem (i : Instr) (t : State) : (s.traced i t).mem = t.mem := by unfold traced; split <;> rfl
@[simp] theorem traced_regs (i : Instr) (t : State) : (s.traced i t).regs = t.regs := by unfold traced; split <;> rfl
@[simp] theorem traced_stack (i : Instr) (t : State) : (s.traced i t).stack = t.stack := by unfold traced; split <;> rfl
@[simp] theorem traced_pc (i : Instr) (t : State) : (s.traced i t).pc = t.pc := by unfold traced; split <;> rfl
@[simp] theorem traced_run (i : Instr) (t : State) : (s.traced i t).run = t.run := by unfold traced; split <;> rfl
@[simp] theorem traced_fault (i : Instr) (t : State) : (s.traced i t).fault = t.fault := by unfold traced; split <;> rfl
@[simp] theorem traced_inWait (i : Instr) (t : State) : (s.traced i t).inWait = t.inWait := by unfold traced; split <;> rfl
@[simp] theorem traced_traceDepth (i : Instr) (t : State) : (s.traced i t).traceDepth = t.traceDepth := by unfold traced; split <;> rfl
@[simp] theorem traced_traceEnable (i : Instr) (t : State) : (s.traced i t).traceEnable = t.traceEnable := by unfold traced; split <;> rfl
@[simp] theorem traced_stackCapacity (i : Instr) (t : State) : (s.traced i t).stackCapacity = t.stackCapacity := by unfold traced; split <;> rfl
@[simp] theorem traced_input (i : Instr) (t : State) : (s.traced i t).input = t.input := by unfold traced; split <;> rfl
@[simp] theorem traced_consumed (i : Instr) (t : State) : (s.traced i t).consumed = t.consumed := by unfold traced; split <;> rfl
@[simp] theorem traced_output (i : Instr) (t : State) : (s.traced i t).output = t.output := by unfold traced; split <;> rfl
@[simp] theorem traced_trace (i : Instr) (t : State) :
    (s.traced i t).trace = if s.traceEnable && t.committed then t.trace ++ [s.traceRecord i] else t.trace := by
  unfold traced; split <;> rfl

/-! ## Reading registers -/

@[simp] theorem reg_setReg_same (i : RegIdx) (v : Word) : (s.setReg i v).reg i = v := by
  simp [reg, setReg]

theorem reg_setReg (i j : RegIdx) (v : Word) : (s.setReg i v).reg j = if j = i then v else s.reg j := by
  simp only [reg, setReg, Vector.getElem_set, Fin.ext_iff, eq_comm (a := j.val)]

/-- What a register reads depends on the register file alone. -/
theorem reg_congr {s t : State} (h : s.regs = t.regs) (i : RegIdx) : s.reg i = t.reg i := by simp [reg, h]

/-- The sequential successor depends on `pc` alone. -/
theorem seqPc_congr {s t : State} (h : s.pc = t.pc) (n : Nat) : s.seqPc n = t.seqPc n := by simp [seqPc, h]

@[simp] theorem advance_eq (n : Nat) : s.advance n = s.setPc (s.pc + BitVec.ofNat 16 (1 + n)) := rfl

end Sys2Proof.Machine.State
end

