-- ==== Sys2Proof/Laws/Operands.lean ====
section
/-! SUPPORT. What each shared operation of the meanings can do, said once: it goes on, or it raises its one fault. -/

namespace Sys2Proof.Machine.State

variable {s : State}

@[simp] theorem value?_lit (v : Word) : s.value? (.lit v) = some v := rfl
@[simp] theorem value?_reg (i : RegIdx) : s.value? (.reg i) = some (s.reg i) := rfl
@[simp] theorem value?_bad (w : Word) : s.value? (.bad w) = none := rfl

/-- An operand has a value exactly when it is legal as a read operand. -/
theorem value?_isSome (o : Operand) : (s.value? o).isSome = o.legalIn .read := by cases o <;> rfl

theorem source_some {o : Operand} {v : Word} (h : s.value? o = some v) (k : Word → Outcome) : s.source o k = k v := by
  simp [source, h]

theorem source_none {o : Operand} (h : o.legalIn .read = false) (k : Word → Outcome) :
    s.source o k = .next (s.raiseFault .invalidRegister o.word) := by
  cases o <;> simp_all [source, Operand.legalIn]

@[simp] theorem target_reg (i : RegIdx) (k : RegIdx → Outcome) : s.target (.reg i) k = k i := rfl

theorem target_illegal {o : Operand} (h : o.legalIn .write = false) (k : RegIdx → Outcome) :
    s.target o k = .next (s.raiseFault .invalidRegister o.word) := by
  cases o <;> simp_all [target, Operand.legalIn]

/-- A read operand goes on with its value or raises InvalidRegister. -/
theorem source_cases {o : Operand} {k : Word → Outcome} {r : Outcome} (h : s.source o k = r) :
    (∃ v, s.value? o = some v ∧ k v = r) ∨ (o.legalIn .read = false ∧ r = .next (s.raiseFault .invalidRegister o.word)) := by
  cases hv : s.value? o with
  | some v => exact .inl ⟨v, rfl, by rwa [source_some hv] at h⟩
  | none =>
    have hl : o.legalIn .read = false := by have := value?_isSome (s := s) o; rw [hv] at this; exact this.symm
    exact .inr ⟨hl, by rw [source_none hl] at h; exact h.symm⟩

/-- A write target goes on with its register or raises InvalidRegister. -/
theorem target_cases {o : Operand} {k : RegIdx → Outcome} {r : Outcome} (h : s.target o k = r) :
    (∃ i, o = .reg i ∧ k i = r) ∨ (o.legalIn .write = false ∧ r = .next (s.raiseFault .invalidRegister o.word)) := by
  cases o with
  | reg i => exact .inl ⟨i, rfl, h⟩
  | lit v => exact .inr ⟨rfl, h.symm⟩
  | bad w => exact .inr ⟨rfl, h.symm⟩

/-- A data address goes on inside memory or raises DataOutOfRange. -/
theorem dataAddress_cases {a : Word} {k : Nat → Outcome} {r : Outcome} (h : s.dataAddress a k = r) :
    (a.toNat < Config.memWords ∧ k a.toNat = r) ∨
      (Config.memWords ≤ a.toNat ∧ r = .next (s.raiseFault .dataOutOfRange a)) := by
  unfold dataAddress at h
  split at h
  · next ha => exact .inl ⟨ha, h⟩
  · next ha => exact .inr ⟨by omega, h.symm⟩

/-- A push goes on with the pushed stack or raises StackOverflow. -/
theorem pushing_cases {v : Word} {k : State → Outcome} {r : Outcome} (h : s.pushing v k = r) :
    (s.stackFull = false ∧ k (s.push v) = r) ∨ (s.stackFull = true ∧ r = .next (s.raiseFault .stackOverflow v)) := by
  unfold pushing at h
  split at h
  · next hf => exact .inr ⟨hf, h.symm⟩
  · next hf => exact .inl ⟨by simpa using hf, h⟩

/-- The top of the stack, or nothing on an empty one. -/
theorem pop?_cases (s : State) :
    (s.stack = [] ∧ s.pop? = none) ∨ ∃ v rest, s.stack = v :: rest ∧ s.pop? = some (v, { s with stack := rest }) := by
  unfold pop?
  cases h : s.stack with
  | nil => exact .inl ⟨rfl, rfl⟩
  | cons v rest => exact .inr ⟨v, rest, rfl, rfl⟩

/-- A stack is full exactly when a finite capacity is reached. -/
theorem stackFull_iff : s.stackFull = true ↔ ∃ n, s.stackCapacity = some n ∧ n ≤ s.stack.length := by
  unfold stackFull
  cases s.stackCapacity <;> simp

@[simp] theorem writeBack_eq (n : Nat) (i : RegIdx) (v : Word) : s.writeBack n i v = .next ((s.setReg i v).advance n) := rfl

/-! ## Tracing an outcome -/

@[simp] theorem traced_next (i : Instr) (t : State) : Outcome.traced s i (.next t) = .next (s.traced i t) := rfl

/-- A traced outcome is a next state exactly when the outcome is. -/
theorem traced_eq_next {i : Instr} {o : Outcome} {t : State} (h : Outcome.traced s i o = .next t) :
    ∃ u, o = .next u ∧ t = s.traced i u := by
  cases o with
  | next u => exact ⟨u, rfl, by simpa [Outcome.traced] using h.symm⟩
  | fault r => simp [Outcome.traced] at h
  | refused r => simp [Outcome.traced] at h

end Sys2Proof.Machine.State
end

