-- ==== Sys2Proof/Laws/Exec.lean ====
section
/-! SUPPORT. The one inversion lemma of `exec`: an instruction either raises a fault, changing the run state and the fault record
alone, or has one of the effects listed here. Later proofs take cases on `Effect` and unfold no meaning. -/

namespace Sys2Proof.Machine

open State

/-- What an instruction that raises no fault does to the state. -/
inductive Effect : Instr → State → State → Prop
  /-- HALT (R120). -/
  | halt (s : State) : Effect .halt s (s.halt.advance 0)
  /-- NOOP (R121). -/
  | noop (s : State) : Effect .noop s (s.advance 0)
  /-- A result written to the target register: SET, EQ, GT, the ALU, RMEM, and POP on an empty stack. -/
  | write (i : Instr) (s : State) (r : RegIdx) (v : Word) (h : i.target? = some r)
      (hin : ∀ a, i ≠ .inp a) : Effect i s ((s.setReg r v).advance i.arity)
  /-- POP with an entry (R133). -/
  | popTop (s : State) (r : RegIdx) (v : Word) (rest : List Word) (h : s.stack = v :: rest) :
      Effect (.pop (.reg r)) s ((State.setReg { s with stack := rest } r v).advance 1)
  /-- PUSH with room (R132). -/
  | push (s : State) (a : Operand) (v : Word) (h : s.value? a = some v) (hf : s.stackFull = false) :
      Effect (.push a) s ((s.push v).advance 1)
  /-- JMP (R150). -/
  | jmp (s : State) (a : Operand) (v : Word) (h : s.value? a = some v) : Effect (.jmp a) s (s.setPc v)
  /-- JT, taken or not (R151). -/
  | jt (s : State) (a b : Operand) (target : Word) : Effect (.jt a b) s (s.setPc target)
  /-- JF, taken or not (R152). -/
  | jf (s : State) (a b : Operand) (target : Word) : Effect (.jf a b) s (s.setPc target)
  /-- WMEM inside memory (R181). -/
  | store (s : State) (a b : Operand) (addr v : Word) (ha : s.value? a = some addr) (hb : s.value? b = some v)
      (h : addr.toNat < Config.memWords) : Effect (.wmem a b) s ((s.storeWord addr.toNat v).advance 2)
  /-- CALL with room (R190). -/
  | call (s : State) (a : Operand) (v : Word) (h : s.value? a = some v) (hf : s.stackFull = false) :
      Effect (.call a) s (((s.push (s.seqPc 1)).setPc v).traceMove 1)
  /-- RET with an entry (R191). -/
  | retPop (s : State) (v : Word) (rest : List Word) (h : s.stack = v :: rest) :
      Effect .ret s ((State.setPc { s with stack := rest } v).traceMove (-1))
  /-- RET on an empty stack (R192). -/
  | retHalt (s : State) (h : s.stack = []) : Effect .ret s (s.halt.advance 0)
  /-- OUT (R200). -/
  | out (s : State) (a : Operand) (v : Word) (h : s.value? a = some v) : Effect (.out a) s ((s.emit v).advance 1)
  /-- IN with a character (R201). -/
  | inChar (s : State) (r : RegIdx) (c : Byte) (rest : List InputAnswer) (h : s.input = .char c :: rest) :
      Effect (.inp (.reg r)) s (((s.takeAnswer (.char c) rest).setReg r (c.setWidth 16)).advance 1)
  /-- IN at end of input (R202). -/
  | inEof (s : State) (r : RegIdx) (rest : List InputAnswer) (h : s.input = .eof :: rest) :
      Effect (.inp (.reg r)) s (s.takeAnswer .eof rest).endInput
  /-- IN that waits (R201). -/
  | inWait (s : State) (r : RegIdx) (h : s.input = []) : Effect (.inp (.reg r)) s s.waitInput

/-- The fault an instruction of this kind can raise (40_execution_engine.md R107, points 4 and 5). -/
inductive OwnFault : Instr → State → FaultReason → Prop
  | operand (i : Instr) (s : State) (p : Role × Operand) (hp : p ∈ i.operands) (h : p.2.legalIn p.1 = false) :
      OwnFault i s .invalidRegister
  | divide (s : State) (a b c : Operand) : OwnFault (.mod a b c) s .divideByZero
  | load (s : State) (a b : Operand) : OwnFault (.rmem a b) s .dataOutOfRange
  | store (s : State) (a b : Operand) : OwnFault (.wmem a b) s .dataOutOfRange
  | push (s : State) (a : Operand) (h : s.stackFull = true) : OwnFault (.push a) s .stackOverflow
  | call (s : State) (a : Operand) (h : s.stackFull = true) : OwnFault (.call a) s .stackOverflow

theorem OwnFault.reason_ne_none {i : Instr} {s : State} {r : FaultReason} (h : OwnFault i s r) : r ≠ .none := by
  cases h <;> simp

/-- The two ways an instruction ends. -/
def Ends (i : Instr) (s t : State) : Prop :=
  Effect i s t ∨ ∃ reason raw, OwnFault i s reason ∧ t = s.raiseFault reason raw

theorem Ends.raise {i : Instr} {s t : State} {reason : FaultReason} {raw : Word} (hf : OwnFault i s reason)
    (h : Host.Outcome.next t = (.next (s.raiseFault reason raw) : Outcome)) : Ends i s t := by
  cases h; exact .inr ⟨reason, raw, hf, rfl⟩

/-- SET, NOT and every other two-operand writer of a register whose effect is a plain result. -/
theorem ends_write {i : Instr} {s t : State} {r : RegIdx} {v : Word} (hr : i.target? = some r) (hin : ∀ a, i ≠ .inp a)
    (h : s.writeBack i.arity r v = .next t) : Ends i s t := by
  rw [writeBack_eq] at h; cases h; exact .inl (.write i s r v hr hin)

/-- A read operand inside an instruction: its value, or the instruction's fault. -/
theorem ends_source {i : Instr} {s t : State} {o : Operand} {k : Word → Outcome} (hp : (Role.read, o) ∈ i.operands)
    (h : s.source o k = .next t) (hk : ∀ v, s.value? o = some v → k v = .next t → Ends i s t) : Ends i s t := by
  rcases source_cases h with ⟨v, hv, h⟩ | ⟨hl, h⟩
  · exact hk v hv h
  · exact .raise (.operand i s _ hp hl) h

/-- A write target inside an instruction: its register, or the instruction's fault. -/
theorem ends_target {i : Instr} {s t : State} {o : Operand} {k : RegIdx → Outcome} (hp : (Role.write, o) ∈ i.operands)
    (h : s.target o k = .next t) (hk : ∀ r, o = .reg r → k r = .next t → Ends i s t) : Ends i s t := by
  rcases target_cases h with ⟨r, hr, h⟩ | ⟨hl, h⟩
  · exact hk r hr h
  · exact .raise (.operand i s _ hp hl) h

/-- The instructions with a write target and two read operands whose effect is a plain result. -/
theorem ends_result3 {f : Operand → Operand → Operand → Instr} {a b c : Operand} {s t : State} {g : Word → Word → Word}
    (hops : (f a b c).operands = [(.write, a), (.read, b), (.read, c)]) (hin : ∀ x, f a b c ≠ .inp x)
    (h : (s.target a fun i => s.source b fun vb => s.source c fun vc => s.writeBack 3 i (g vb vc)) = .next t) :
    Ends (f a b c) s t := by
  refine ends_target (by simp [hops]) h fun r hr h => ends_source (by simp [hops]) h fun vb _ h =>
    ends_source (by simp [hops]) h fun vc _ h => ends_write (r := r) (v := g vb vc) ?_ hin ?_
  · subst hr; simp [Instr.target?, hops]
  · simpa [Instr.arity, hops] using h

/-- What an instruction can do, said once. -/
theorem exec_ends {i : Instr} {s t : State} (h : exec i s = .next t) : Ends i s t := by
  cases i with
  | halt => cases h; exact .inl (.halt s)
  | noop => cases h; exact .inl (.noop s)
  | set a b =>
    exact ends_target (by simp [Instr.operands]) h fun r hr h => ends_source (by simp [Instr.operands]) h fun v _ h =>
      ends_write (r := r) (by simp [Instr.target?, Instr.operands, hr]) (by simp) h
  | push a =>
    refine ends_source (by simp [Instr.operands]) h fun v hv h => ?_
    rcases pushing_cases h with ⟨hf, h⟩ | ⟨hf, h⟩
    · cases h; exact .inl (.push s a v hv hf)
    · exact .raise (.push s a hf) h
  | pop a =>
    refine ends_target (by simp [Instr.operands]) h fun r hr hk => ?_
    subst hr
    rcases pop?_cases s with ⟨-, hp⟩ | ⟨v, rest, hs, hp⟩
    · rw [hp] at hk
      exact ends_write (by simp [Instr.target?, Instr.operands]) (by simp) hk
    · rw [hp] at hk; cases hk; exact .inl (.popTop s r v rest hs)
  | eq a b c => exact ends_result3 rfl (by simp) h
  | gt a b c => exact ends_result3 rfl (by simp) h
  | add a b c => exact ends_result3 rfl (by simp) h
  | mult a b c => exact ends_result3 rfl (by simp) h
  | and a b c => exact ends_result3 rfl (by simp) h
  | or a b c => exact ends_result3 rfl (by simp) h
  | mod a b c =>
    refine ends_target (by simp [Instr.operands]) h fun r hr h => ends_source (by simp [Instr.operands]) h fun vb _ h =>
      ends_source (by simp [Instr.operands]) h fun vc _ h => ?_
    split at h
    · exact .raise (.divide s a b c) h.symm
    · exact ends_write (r := r) (by simp [Instr.target?, Instr.operands, hr]) (by simp) h
  | not a b =>
    exact ends_target (by simp [Instr.operands]) h fun r hr h => ends_source (by simp [Instr.operands]) h fun v _ h =>
      ends_write (r := r) (by simp [Instr.target?, Instr.operands, hr]) (by simp) h
  | rmem a b =>
    refine ends_target (by simp [Instr.operands]) h fun r hr h => ends_source (by simp [Instr.operands]) h fun v _ h => ?_
    rcases dataAddress_cases h with ⟨-, h⟩ | ⟨-, h⟩
    · exact ends_write (r := r) (by simp [Instr.target?, Instr.operands, hr]) (by simp) h
    · exact .raise (.load s a b) h
  | wmem a b =>
    refine ends_source (by simp [Instr.operands]) h fun va ha h => ends_source (by simp [Instr.operands]) h fun vb hb h => ?_
    rcases dataAddress_cases h with ⟨hl, h⟩ | ⟨-, h⟩
    · cases h; exact .inl (.store s a b va vb ha hb hl)
    · exact .raise (.store s a b) h
  | jmp a =>
    refine ends_source (by simp [Instr.operands]) h fun v hv h => ?_
    cases h; exact .inl (.jmp s a v hv)
  | jt a b =>
    refine ends_source (by simp [Instr.operands]) h fun va _ h => ends_source (by simp [Instr.operands]) h fun vb _ h => ?_
    cases h
    split
    · exact .inl (.jt s a b _)
    · exact .inl (.jt s a b _)
  | jf a b =>
    refine ends_source (by simp [Instr.operands]) h fun va _ h => ends_source (by simp [Instr.operands]) h fun vb _ h => ?_
    cases h
    split
    · exact .inl (.jf s a b _)
    · exact .inl (.jf s a b _)
  | call a =>
    refine ends_source (by simp [Instr.operands]) h fun v hv h => ?_
    rcases pushing_cases h with ⟨hf, h⟩ | ⟨hf, h⟩
    · cases h; exact .inl (.call s a v hv hf)
    · exact .raise (.call s a hf) h
  | ret =>
    rcases pop?_cases s with ⟨hs, hp⟩ | ⟨v, rest, hs, hp⟩
    · simp only [exec, execRet, hp] at h; cases h; exact .inl (.retHalt s hs)
    · simp only [exec, execRet, hp] at h; cases h; exact .inl (.retPop s v rest hs)
  | out a =>
    refine ends_source (by simp [Instr.operands]) h fun v hv h => ?_
    cases h; exact .inl (.out s a v hv)
  | inp a =>
    refine ends_target (by simp [Instr.operands]) h fun r hr hk => ?_
    subst hr
    cases hi : s.input with
    | nil => rw [hi] at hk; cases hk; exact .inl (.inWait s r hi)
    | cons ans rest =>
      cases ans with
      | char c => rw [hi] at hk; cases hk; exact .inl (.inChar s r c rest hi)
      | eof => rw [hi] at hk; cases hk; exact .inl (.inEof s r rest hi)

end Sys2Proof.Machine
end

