-- ==== Sys2Proof/Laws/Memory.lean ====
section
/-! SUPPORT. The laws of the memory: what a byte and a Word read after a write, the canonical form kept by every operation, and
that two memories in canonical form that read the same are the same. -/

namespace Sys2Proof.Machine.Memory

/-! ## Bytes -/

theorem wfFrom_cons {lo k : Nat} {b : Byte} {m : Memory} :
    wfFrom lo ((k, b) :: m) = true ↔ lo ≤ k ∧ k < Config.memBytes ∧ b ≠ unlisted ∧ wfFrom (k + 1) m = true := by
  simp [wfFrom, and_assoc]

theorem wfFrom_mono {m : Memory} {lo lo' : Nat} (hle : lo' ≤ lo) (h : wfFrom lo m = true) : wfFrom lo' m = true := by
  cases m with
  | nil => rfl
  | cons c m => rcases c with ⟨k, b⟩; rw [wfFrom_cons] at h ⊢; exact ⟨by omega, h.2⟩

/-- Below its first address a canonical memory reads as unlisted. -/
theorem readByte_below {m : Memory} {lo a : Nat} (h : wfFrom lo m = true) (ha : a < lo) : m.readByte a = unlisted := by
  induction m generalizing lo with
  | nil => rfl
  | cons c m ih =>
    rcases c with ⟨k, b⟩
    rw [wfFrom_cons] at h
    have hne : ¬ a = k := by omega
    simp only [readByte, hne, if_false]
    exact ih h.2.2.2 (by omega)

theorem readByte_writeByte {m : Memory} {lo : Nat} (h : wfFrom lo m = true) (a : Nat) (v : Byte) (a' : Nat) :
    (m.writeByte a v).readByte a' = if a' = a then v else m.readByte a' := by
  induction m generalizing lo with
  | nil =>
    simp only [writeByte]
    split
    · next hv => subst hv; simp [readByte]
    · simp [readByte]
  | cons c m ih =>
    rcases c with ⟨k, b⟩
    rw [wfFrom_cons] at h
    have hrest : ∀ x, x ≤ k → readByte m x = unlisted := fun x hx => readByte_below h.2.2.2 (by omega)
    simp only [writeByte]
    split
    · next hlt =>
      split
      · next hv =>
        by_cases e : a' = a
        · subst e
          have : ¬ a' = k := by omega
          simp [readByte, this, hrest a' (by omega), hv]
        · simp [e]
      · simp [readByte]
    · split
      · next hlt e =>
        subst e
        split
        · next hv =>
          by_cases e' : a' = a
          · subst e'; simp [hrest a' (Nat.le_refl _), hv]
          · simp [readByte, e']
        · by_cases e' : a' = a <;> simp [readByte, e']
      · next hlt hne =>
        simp only [readByte, ih h.2.2.2]
        by_cases e : a' = k
        · have : ¬ a' = a := by omega
          simp [e]
          intro hh; omega
        · simp [e]

theorem wfFrom_writeByte {m : Memory} {lo a : Nat} {v : Byte} (h : wfFrom lo m = true) (hlo : lo ≤ a)
    (ha : a < Config.memBytes) : wfFrom lo (m.writeByte a v) = true := by
  induction m generalizing lo with
  | nil =>
    simp only [writeByte]
    split
    · rfl
    · next hv => rw [wfFrom_cons]; exact ⟨hlo, ha, hv, rfl⟩
  | cons c m ih =>
    rcases c with ⟨k, b⟩
    have h' := h
    rw [wfFrom_cons] at h'
    simp only [writeByte]
    split
    · split
      · exact h
      · next hlt hv => rw [wfFrom_cons, wfFrom_cons]; exact ⟨hlo, ha, hv, by omega, h'.2.1, h'.2.2.1, h'.2.2.2⟩
    · split
      · next e =>
        subst e
        split
        · exact wfFrom_mono (by omega) h'.2.2.2
        · next hv => rw [wfFrom_cons]; exact ⟨hlo, ha, hv, h'.2.2.2⟩
      · rw [wfFrom_cons]
        exact ⟨h'.1, h'.2.1, h'.2.2.1, ih h'.2.2.2 (by omega)⟩

theorem wf_writeByte {m : Memory} {a : Nat} {v : Byte} (h : m.wf = true) (ha : a < Config.memBytes) :
    (m.writeByte a v).wf = true := wfFrom_writeByte h (Nat.zero_le _) ha

/-! ## Words -/

/-- A Word is its high byte before its low byte. -/
theorem word_of_bytes (v : Word) : ((v.extractLsb' 8 8 : Byte) ++ (v.extractLsb' 0 8 : Byte) : Word) = v := by
  apply BitVec.eq_of_getLsbD_eq
  intro i hi
  simp only [BitVec.getLsbD_append, BitVec.getLsbD_extractLsb']
  by_cases h : i < 8
  · simp [h]
  · have h1 : i - 8 < 8 := by omega
    have h2 : 8 + (i - 8) = i := by omega
    simp [h, h1, h2]

/-- Two Words joined from bytes are equal exactly when the bytes are. -/
theorem append_inj {h l h' l' : Byte} (e : (h ++ l : Word) = h' ++ l') : h = h' ∧ l = l' := by
  constructor
  · apply BitVec.eq_of_getLsbD_eq
    intro i hi
    have := congrArg (fun w : Word => w.getLsbD (i + 8)) e
    simpa only [BitVec.getLsbD_append, Nat.add_sub_cancel, show ¬ i + 8 < 8 by omega, if_false, decide_false, cond_false] using this
  · apply BitVec.eq_of_getLsbD_eq
    intro i hi
    have := congrArg (fun w : Word => w.getLsbD i) e
    simpa only [BitVec.getLsbD_append, hi, if_true, decide_true, cond_true] using this

/-- A byte after a Word is written: the Word's own two bytes, every other byte as before. -/
theorem readByte_writeWord {m : Memory} (h : m.wf = true) {a : Nat} (ha : a < Config.memWords) (v : Word) (k : Nat) :
    (m.writeWord a v).readByte k =
      if k = 2 * a + 1 then v.extractLsb' 8 8 else if k = 2 * a then v.extractLsb' 0 8 else m.readByte k := by
  have h1 : (m.writeByte (2 * a) (v.extractLsb' 0 8)).wf = true := wf_writeByte h (by simp at ha ⊢; omega)
  simp only [writeWord, readByte_writeByte h1, readByte_writeByte h]

/-- A Word after a Word is written (20_memory.md R59). -/
theorem readWord_writeWord {m : Memory} (h : m.wf = true) {a : Nat} (ha : a < Config.memWords) (v : Word) (k : Nat) :
    (m.writeWord a v).readWord k = if k = a then v else m.readWord k := by
  have e1 : ¬ (2 * k = 2 * a + 1) := by omega
  have e2 : ¬ (2 * k + 1 = 2 * a) := by omega
  simp only [readWord, readByte_writeWord h ha, e1, e2, if_false]
  by_cases e : k = a
  · subst e; simpa using word_of_bytes v
  · have e3 : ¬ (2 * k + 1 = 2 * a + 1) := by omega
    have e4 : ¬ (2 * k = 2 * a) := by omega
    simp [e, e4]

theorem wf_writeWord {m : Memory} {a : Nat} {v : Word} (h : m.wf = true) (ha : a < Config.memWords) :
    (m.writeWord a v).wf = true := by
  simp at ha
  exact wf_writeByte (wf_writeByte h (by simp; omega)) (by simp; omega)

theorem wf_writeWords {ws : List Word} {m : Memory} {a : Nat} (h : m.wf = true) : (m.writeWords a ws).wf = true := by
  induction ws generalizing m a with
  | nil => exact h
  | cons w ws ih =>
    simp only [writeWords]
    split
    · next ha => exact ih (wf_writeWord h ha)
    · exact ih h

/-! ## The image (70_reset_and_hazards.md R241) -/

theorem wfFrom_ofBytes {bs : List Byte} {k : Nat} (h : k + bs.length ≤ Config.memBytes) : wfFrom k (ofBytes k bs) = true := by
  induction bs generalizing k with
  | nil => rfl
  | cons b bs ih =>
    simp at h ih
    have hr := ih (k := k + 1) (by omega)
    simp only [ofBytes]
    split
    · exact wfFrom_mono (by omega) hr
    · next hb => rw [wfFrom_cons]; exact ⟨Nat.le_refl _, by simp; omega, hb, hr⟩

theorem readByte_ofBytes {bs : List Byte} {k : Nat} (h : k + bs.length ≤ Config.memBytes) (a : Nat) :
    (ofBytes k bs).readByte a = if k ≤ a then bs.getD (a - k) unlisted else unlisted := by
  induction bs generalizing k with
  | nil => simp [ofBytes, readByte]
  | cons b bs ih =>
    simp at h
    have hi := ih (k := k + 1) (by simp; omega)
    have hw : wfFrom (k + 1) (ofBytes (k + 1) bs) = true := wfFrom_ofBytes (by simp; omega)
    simp only [ofBytes]
    by_cases e : a = k
    · subst e
      split
      · next hb => rw [readByte_below hw (by omega)]; simp [hb]
      · simp [readByte]
    · have hr : (ofBytes (k + 1) bs).readByte a = if k ≤ a then (b :: bs).getD (a - k) unlisted else unlisted := by
        rw [hi]
        by_cases hle : k ≤ a
        · have h1 : k + 1 ≤ a := by omega
          obtain ⟨d, hd⟩ : ∃ d, a - k = d + 1 := ⟨a - k - 1, by omega⟩
          have hd' : a - (k + 1) = d := by omega
          simp [hle, h1, hd, hd']
        · have h1 : ¬ k + 1 ≤ a := by omega
          simp [hle, h1]
      split
      · exact hr
      · simp only [readByte, e, if_false]; exact hr

/-! ## Extensionality -/

theorem eq_of_readByte_eq_from {m m' : Memory} {lo : Nat} (h : wfFrom lo m = true) (h' : wfFrom lo m' = true)
    (e : ∀ a, m.readByte a = m'.readByte a) : m = m' := by
  induction m generalizing lo m' with
  | nil =>
    cases m' with
    | nil => rfl
    | cons c m' =>
      rcases c with ⟨k, b⟩
      rw [wfFrom_cons] at h'
      exact absurd (by simpa [readByte] using (e k).symm) h'.2.2.1
  | cons c m ih =>
    rcases c with ⟨k, b⟩
    have hc := wfFrom_cons.mp h
    cases m' with
    | nil => exact absurd (by simpa [readByte] using e k) hc.2.2.1
    | cons c' m' =>
      rcases c' with ⟨k', b'⟩
      have hc' := wfFrom_cons.mp h'
      have hk : k = k' := by
        rcases Nat.lt_trichotomy k k' with hlt | heq | hgt
        · have h1 := e k
          have hne : ¬ k = k' := by omega
          simp only [readByte, if_true, hne, if_false] at h1
          exact absurd (h1.trans (readByte_below hc'.2.2.2 (by omega))) hc.2.2.1
        · exact heq
        · have h1 := e k'
          have hne : ¬ k' = k := by omega
          simp only [readByte, if_true, hne, if_false] at h1
          exact absurd (h1.symm.trans (readByte_below hc.2.2.2 (by omega))) hc'.2.2.1
      subst hk
      have hb : b = b' := by simpa [readByte] using e k
      subst hb
      have hm : m = m' := by
        apply ih hc.2.2.2 hc'.2.2.2
        intro a
        by_cases ha : a = k
        · subst ha
          rw [readByte_below hc.2.2.2 (by omega), readByte_below hc'.2.2.2 (by omega)]
        · simpa [readByte, ha] using e a
      rw [hm]

/-- Equal memories are equal data: canonical memories that read the same byte everywhere are the same list. -/
theorem eq_of_readByte_eq {m m' : Memory} (h : m.wf = true) (h' : m'.wf = true)
    (e : ∀ a, m.readByte a = m'.readByte a) : m = m' := eq_of_readByte_eq_from h h' e

/-- Canonical memories that read the same Word everywhere are the same list. -/
theorem eq_of_readWord_eq {m m' : Memory} (h : m.wf = true) (h' : m'.wf = true)
    (e : ∀ a, m.readWord a = m'.readWord a) : m = m' := by
  apply eq_of_readByte_eq h h'
  intro a
  obtain ⟨d, hd⟩ : ∃ d, a = 2 * d ∨ a = 2 * d + 1 := ⟨a / 2, by omega⟩
  have := append_inj (e d)
  rcases hd with rfl | rfl
  · exact this.2
  · exact this.1

end Sys2Proof.Machine.Memory
end

