-- ==== Sys2Proof/Laws/Fetch.lean ====
section
/-! SUPPORT. What the fetch reads: the Words from `pc` on, as far as memory reaches. -/

namespace Sys2Proof.Machine

theorem Memory.getElem?_wordsFrom (m : Memory) (a n k : Nat) :
    (m.wordsFrom a n)[k]? = if k < n ∧ a + k < Config.memWords then some (m.readWord (a + k)) else none := by
  induction n generalizing a k with
  | zero => simp [wordsFrom]
  | succ n ih =>
    simp only [wordsFrom]
    split
    · next h =>
      cases k with
      | zero => simp at h; simp [h]
      | succ k => simp [ih, Nat.add_comm, Nat.add_left_comm]
    · next h =>
      have : ¬ (k < n + 1 ∧ a + k < Config.memWords) := by simp at h ⊢; omega
      simp only [this, if_false, List.getElem?_nil]

theorem Memory.length_wordsFrom (m : Memory) (a n : Nat) :
    (m.wordsFrom a n).length = min n (Config.memWords - a) := by
  induction n generalizing a with
  | zero => simp [wordsFrom]
  | succ n ih =>
    simp only [wordsFrom]
    split
    · next h => simp at h; simp [ih]; omega
    · next h => simp at h ⊢; omega

/-- Outside memory the fetch reads no Word (40_execution_engine.md R101). -/
theorem fetchWords_outside {m : Memory} {p : Word} (h : Config.memWords ≤ p.toNat) : fetchWords m p = [] := by
  have : ¬ p.toNat < Config.memWords := by omega
  simp only [fetchWords, Memory.wordsFrom, this, if_false]

/-- Inside memory the fetch reads the opcode Word first. -/
theorem fetchWords_inside {m : Memory} {p : Word} (h : p.toNat < Config.memWords) :
    fetchWords m p = m.readWord p.toNat :: m.wordsFrom (p.toNat + 1) 3 := by
  simp only [fetchWords, Memory.wordsFrom, h, if_true]

/-- A Word the fetch reads is the Word memory holds there. -/
theorem getElem?_fetchWords (m : Memory) (p : Word) (k : Nat) :
    (fetchWords m p)[k]? = if k < 4 ∧ p.toNat + k < Config.memWords then some (m.readWord (p.toNat + k)) else none :=
  Memory.getElem?_wordsFrom m p.toNat 4 k

theorem fetchInstr_of_decode {m : Memory} {p : Word} {i : Instr} {rest : List Word}
    (h : decode (fetchWords m p) = .ok (i, rest)) : fetchInstr m p = .ok i := by simp [fetchInstr, h]

theorem fetchInstr_of_error {m : Memory} {p : Word} {e : DecodeError} (h : decode (fetchWords m p) = .error e) :
    fetchInstr m p = .error (fetchFault p e) := by simp [fetchInstr, h]

end Sys2Proof.Machine
end

