-- ==== Sys2Proof/Laws/PerInstr.lean ====
section
/-! SUPPORT. The law of every instruction as syntax: its opcode is one of 0..21, and it is 1 + arity Words long, at most four. One lemma per constructor. -/

namespace Sys2Proof.Laws.Length

/-- The opcode is defined, and the instruction takes between one and four Words, one more than its arity (30_encoding.md R70, R73). -/
def Statement (i : Instr) : Prop :=
  i.opcode.toNat < Config.nOpcodes ∧ (encode i).length = 1 + i.arity ∧ (encode i).length ≤ 4

theorem halt : Statement .halt := by simp [Statement, Instr.opcode, encode, Instr.operandWords, Instr.arity, Instr.operands]
theorem set (a b : Operand) : Statement (.set a b) := by
  simp [Statement, Instr.opcode, encode, Instr.operandWords, Instr.arity, Instr.operands]
theorem push (a : Operand) : Statement (.push a) := by
  simp [Statement, Instr.opcode, encode, Instr.operandWords, Instr.arity, Instr.operands]
theorem pop (a : Operand) : Statement (.pop a) := by
  simp [Statement, Instr.opcode, encode, Instr.operandWords, Instr.arity, Instr.operands]
theorem eq (a b c : Operand) : Statement (.eq a b c) := by
  simp [Statement, Instr.opcode, encode, Instr.operandWords, Instr.arity, Instr.operands]
theorem gt (a b c : Operand) : Statement (.gt a b c) := by
  simp [Statement, Instr.opcode, encode, Instr.operandWords, Instr.arity, Instr.operands]
theorem jmp (a : Operand) : Statement (.jmp a) := by
  simp [Statement, Instr.opcode, encode, Instr.operandWords, Instr.arity, Instr.operands]
theorem jt (a b : Operand) : Statement (.jt a b) := by
  simp [Statement, Instr.opcode, encode, Instr.operandWords, Instr.arity, Instr.operands]
theorem jf (a b : Operand) : Statement (.jf a b) := by
  simp [Statement, Instr.opcode, encode, Instr.operandWords, Instr.arity, Instr.operands]
theorem add (a b c : Operand) : Statement (.add a b c) := by
  simp [Statement, Instr.opcode, encode, Instr.operandWords, Instr.arity, Instr.operands]
theorem mult (a b c : Operand) : Statement (.mult a b c) := by
  simp [Statement, Instr.opcode, encode, Instr.operandWords, Instr.arity, Instr.operands]
theorem mod (a b c : Operand) : Statement (.mod a b c) := by
  simp [Statement, Instr.opcode, encode, Instr.operandWords, Instr.arity, Instr.operands]
theorem and (a b c : Operand) : Statement (.and a b c) := by
  simp [Statement, Instr.opcode, encode, Instr.operandWords, Instr.arity, Instr.operands]
theorem or (a b c : Operand) : Statement (.or a b c) := by
  simp [Statement, Instr.opcode, encode, Instr.operandWords, Instr.arity, Instr.operands]
theorem not (a b : Operand) : Statement (.not a b) := by
  simp [Statement, Instr.opcode, encode, Instr.operandWords, Instr.arity, Instr.operands]
theorem rmem (a b : Operand) : Statement (.rmem a b) := by
  simp [Statement, Instr.opcode, encode, Instr.operandWords, Instr.arity, Instr.operands]
theorem wmem (a b : Operand) : Statement (.wmem a b) := by
  simp [Statement, Instr.opcode, encode, Instr.operandWords, Instr.arity, Instr.operands]
theorem call (a : Operand) : Statement (.call a) := by
  simp [Statement, Instr.opcode, encode, Instr.operandWords, Instr.arity, Instr.operands]
theorem ret : Statement .ret := by simp [Statement, Instr.opcode, encode, Instr.operandWords, Instr.arity, Instr.operands]
theorem out (a : Operand) : Statement (.out a) := by
  simp [Statement, Instr.opcode, encode, Instr.operandWords, Instr.arity, Instr.operands]
theorem inp (a : Operand) : Statement (.inp a) := by
  simp [Statement, Instr.opcode, encode, Instr.operandWords, Instr.arity, Instr.operands]
theorem noop : Statement .noop := by simp [Statement, Instr.opcode, encode, Instr.operandWords, Instr.arity, Instr.operands]

end Sys2Proof.Laws.Length
end

