-- ==== Sys2Proof/Laws/Step.lean ====
section
/-! SUPPORT. What one step can do: it is taken only while Running, and it runs the fetched instruction or raises the fetch's fault. -/

namespace Sys2Proof.Machine

theorem stopOf_eq_none {r : RunState} : stopOf r = none ↔ r = .running := by cases r <;> simp [stopOf]

/-- A step that answers a next state (40_execution_engine.md R100). -/
theorem step_cases {s t : State} (h : step s = .next t) :
    s.run = .running ∧
      ((∃ i u, fetchInstr s.mem s.pc = .ok i ∧ exec i s = .next u ∧ t = s.traced i u) ∨
        ∃ reason raw, fetchInstr s.mem s.pc = .error (reason, raw) ∧ t = s.raiseFault reason raw) := by
  unfold step at h
  split at h
  · cases h
  · next hr =>
    refine ⟨stopOf_eq_none.mp hr, ?_⟩
    split at h
    · next i hi =>
      obtain ⟨u, hu, rfl⟩ := State.traced_eq_next h
      exact .inl ⟨i, u, hi, hu, rfl⟩
    · next reason raw hf => exact .inr ⟨reason, raw, hf, by simpa using h.symm⟩

/-- The step of a running machine whose fetch gives an instruction. -/
theorem step_of_fetch {s : State} {i : Instr} (hr : s.run = .running) (hf : fetchInstr s.mem s.pc = .ok i) :
    step s = Outcome.traced s i (exec i s) := by simp [step, stopOf, hr, hf]

/-- The step of a running machine whose fetch faults. -/
theorem step_of_fetch_fault {s : State} {reason : FaultReason} {raw : Word} (hr : s.run = .running)
    (hf : fetchInstr s.mem s.pc = .error (reason, raw)) : step s = .next (s.raiseFault reason raw) := by
  simp [step, stopOf, hr, hf]

/-- The fetch gives the instruction the decoder reads from the Words at `pc`. -/
theorem fetchInstr_ok {m : Memory} {p : Word} {i : Instr} :
    fetchInstr m p = .ok i ↔ ∃ rest, decode (fetchWords m p) = .ok (i, rest) := by
  unfold fetchInstr
  split
  · next j rest h =>
    constructor
    · intro e; cases e; exact ⟨rest, h⟩
    · rintro ⟨rest', e⟩; rw [h] at e; cases e; rfl
  · next e h =>
    constructor
    · intro e'; cases e'
    · rintro ⟨rest', e'⟩; rw [h] at e'; cases e'

end Sys2Proof.Machine
end

