-- ==== Sys2Proof/Machine/Assembler.lean ====
section
/-! DEFINITION. The assembler text of one instruction (30_encoding.md R85, R86), written and read. It carries no semantics
(decision D23); no step uses it. Text is a list of characters, so that it is compared as plain data (log 19). -/

namespace Sys2Proof.Machine.Assembler

/-- A line of assembler text. -/
abbrev Text := List Char

/-- The mnemonics, upper case (R74, R85). -/
def mnemonic : Instr → Text
  | .halt    => ['H', 'A', 'L', 'T']
  | .set ..  => ['S', 'E', 'T']
  | .push .. => ['P', 'U', 'S', 'H']
  | .pop ..  => ['P', 'O', 'P']
  | .eq ..   => ['E', 'Q']
  | .gt ..   => ['G', 'T']
  | .jmp ..  => ['J', 'M', 'P']
  | .jt ..   => ['J', 'T']
  | .jf ..   => ['J', 'F']
  | .add ..  => ['A', 'D', 'D']
  | .mult .. => ['M', 'U', 'L', 'T']
  | .mod ..  => ['M', 'O', 'D']
  | .and ..  => ['A', 'N', 'D']
  | .or ..   => ['O', 'R']
  | .not ..  => ['N', 'O', 'T']
  | .rmem .. => ['R', 'M', 'E', 'M']
  | .wmem .. => ['W', 'M', 'E', 'M']
  | .call .. => ['C', 'A', 'L', 'L']
  | .ret     => ['R', 'E', 'T']
  | .out ..  => ['O', 'U', 'T']
  | .inp ..  => ['I', 'N']
  | .noop    => ['N', 'O', 'O', 'P']

/-- The decimal spelling of a number. -/
def decimal (n : Nat) : Text := Nat.toDigits 10 n

/-- The spelling of an operand (R85): `r0` to `r7`, or a decimal literal; an invalid Word has none. -/
def operandText : Operand → Option Text
  | .lit v => some (decimal v.toNat)
  | .reg i => some ('r' :: decimal i.val)
  | .bad _ => none

/-- The text of an instruction: the mnemonic, then the operands in order, separated by spaces (R85). -/
def text (i : Instr) : Option Text :=
  i.operands.foldl (fun acc o => match acc, operandText o.2 with
    | some t, some u => some (t ++ ' ' :: u)
    | _, _           => none) (some (mnemonic i))

/-! ## Reading -/

/-- Adds a finished token, if there is one. -/
def flush (cur : Text) (rest : List Text) : List Text := if cur.isEmpty then rest else cur.reverse :: rest

/-- The tokens of a line: separated by spaces or commas, a quoted character being part of its token (R85). -/
def tokens : Text → Text → List Text
  | [], cur => flush cur []
  | '\'' :: c :: '\'' :: rest, cur => tokens rest ('\'' :: c :: '\'' :: cur)
  | c :: rest, cur => if c = ' ' ∨ c = ',' then flush cur (tokens rest []) else tokens rest (c :: cur)

/-- A decimal number. -/
def readDecimal : Text → Nat → Option Nat
  | [], n => some n
  | c :: rest, n => if c.isDigit then readDecimal rest (n * 10 + (c.toNat - '0'.toNat)) else none

/-- A literal operand, if the number is one (R80). -/
def literal (n : Nat) : Option Operand := if n ≤ Config.literalMax then some (.lit (BitVec.ofNat 16 n)) else none

/-- An operand spelling (R85): `r0` to `r7`, a quoted character, or a decimal number 0..32767. -/
def readOperand : Text → Option Operand
  | ['r', d] =>
    if h : d.isDigit ∧ d.toNat - '0'.toNat < 8 then some (.reg ⟨d.toNat - '0'.toNat, h.2⟩) else none
  | ['\'', c, '\''] => literal c.toNat
  | [] => none
  | t => (readDecimal t 0).bind literal

/-- The instruction a mnemonic and its operands spell; the number of operands is the arity (R74, R85). -/
def build : Text → List Operand → Option Instr
  | ['H', 'A', 'L', 'T'], []        => some .halt
  | ['S', 'E', 'T'], [a, b]         => some (.set a b)
  | ['P', 'U', 'S', 'H'], [a]       => some (.push a)
  | ['P', 'O', 'P'], [a]            => some (.pop a)
  | ['E', 'Q'], [a, b, c]           => some (.eq a b c)
  | ['G', 'T'], [a, b, c]           => some (.gt a b c)
  | ['J', 'M', 'P'], [a]            => some (.jmp a)
  | ['J', 'T'], [a, b]              => some (.jt a b)
  | ['J', 'F'], [a, b]              => some (.jf a b)
  | ['A', 'D', 'D'], [a, b, c]      => some (.add a b c)
  | ['M', 'U', 'L', 'T'], [a, b, c] => some (.mult a b c)
  | ['M', 'O', 'D'], [a, b, c]      => some (.mod a b c)
  | ['A', 'N', 'D'], [a, b, c]      => some (.and a b c)
  | ['O', 'R'], [a, b, c]           => some (.or a b c)
  | ['N', 'O', 'T'], [a, b]         => some (.not a b)
  | ['R', 'M', 'E', 'M'], [a, b]    => some (.rmem a b)
  | ['W', 'M', 'E', 'M'], [a, b]    => some (.wmem a b)
  | ['C', 'A', 'L', 'L'], [a]       => some (.call a)
  | ['R', 'E', 'T'], []             => some .ret
  | ['O', 'U', 'T'], [a]            => some (.out a)
  | ['I', 'N'], [a]                 => some (.inp a)
  | ['N', 'O', 'O', 'P'], []        => some .noop
  | _, _                            => none

/-- The instruction a line of assembler text denotes (R85): one machine instruction a line, no labels, no directives (R86). -/
def assemble (line : Text) : Option Instr :=
  match tokens line [] with
  | []        => none
  | m :: rest => (rest.mapM readOperand).bind (build m)

end Sys2Proof.Machine.Assembler
end

