-- ==== Sys2Proof/Tests/Slice0.lean ====
section
/-! SUPPORT. Tests of the model. Expected values come from spec/: the vectors of 95_test_vectors.md are named by their id, the
others are worked by hand from the rule named. Each is about one step. The last part shows, for every statement with
hypotheses, a concrete state and operands that meet them. -/

namespace Sys2Proof.Tests

open Sys2Proof Sys2Proof.Machine Sys2Proof.Rules

/-- The reset state with the given Words at word address `p` and `pc` there. -/
def at_ (p : Nat) (ws : List Word) : State :=
  { State.reset with mem := Memory.writeWords [] p ws, pc := BitVec.ofNat 16 p }

/-- The same with a stack. -/
def withStack (s : State) (st : List Word) : State := { s with stack := st }

/-- What a step leaves of a state, where it answers one. -/
def stepTo {α : Type} (s : State) (f : State → α) : Option α :=
  match step s with
  | .next t => some (f t)
  | .fault _ => none
  | .refused _ => none

/-- The fault record as numbers: is it Faulted, the reason's code, `fault_pc`, `fault_raw`, and `pc`. -/
def faultView (s : State) : Bool × Nat × Nat × Nat × Nat :=
  (s.run == .faulted, s.fault.reason.code.toNat, s.fault.pc.toNat, s.fault.raw.toNat, s.pc.toNat)

/-! ## WellFormed refuses what it should (30_encoding.md R76 to R79) -/

theorem test_wf_literal_too_large : Instr.wellFormed (.jmp (.lit 32768)) = false := by decide
theorem test_wf_invalid_word_in_range : (Operand.bad 32775).canonical = false := by decide
theorem test_wf_invalid_read_operand : Instr.wellFormed (.push (.bad 32776)) = false := by decide
theorem test_wf_literal_write_target : Instr.wellFormed (.set (.lit 5) (.lit 1)) = false := by decide
theorem test_wf_invalid_write_target : Instr.wellFormed (.pop (.bad 65535)) = false := by decide
theorem test_wf_accepts : Instr.wellFormed (.add (.reg 1) (.reg 2) (.lit 32767)) = true := by decide
theorem test_wf_accepts_literal_address : Instr.wellFormed (.wmem (.lit 100) (.reg 7)) = true := by decide

/-! ## Decoding: every constructor from its Words (30_encoding.md R71, R74, R88) -/

theorem test_decode_halt : decode [0] = .ok (.halt, []) := by decide
theorem test_decode_set : decode [1, 32771, 1234] = .ok (.set (.reg 3) (.lit 1234), []) := by decide
theorem test_decode_push : decode [2, 7] = .ok (.push (.lit 7), []) := by decide
theorem test_decode_pop : decode [3, 32770] = .ok (.pop (.reg 2), []) := by decide
theorem test_decode_eq : decode [4, 32775, 32774, 0] = .ok (.eq (.reg 7) (.reg 6) (.lit 0), []) := by decide
theorem test_decode_gt : decode [5, 32774, 32773, 32771] = .ok (.gt (.reg 6) (.reg 5) (.reg 3), []) := by decide
theorem test_decode_jmp : decode [6, 32767] = .ok (.jmp (.lit 32767), []) := by decide
theorem test_decode_jt : decode [7, 32768, 3] = .ok (.jt (.reg 0) (.lit 3), []) := by decide
theorem test_decode_jf : decode [8, 0, 100] = .ok (.jf (.lit 0) (.lit 100), []) := by decide
theorem test_decode_add : decode [9, 32769, 32770, 4] = .ok (.add (.reg 1) (.reg 2) (.lit 4), []) := by decide
theorem test_decode_mult :
    decode [10, 32772, 32771, 32771] = .ok (.mult (.reg 4) (.reg 3) (.reg 3), []) := by decide
theorem test_decode_mod : decode [11, 32773, 32772, 100] = .ok (.mod (.reg 5) (.reg 4) (.lit 100), []) := by decide
theorem test_decode_and : decode [12, 32771, 32770, 255] = .ok (.and (.reg 3) (.reg 2) (.lit 255), []) := by decide
theorem test_decode_or : decode [13, 32770, 32769, 21845] = .ok (.or (.reg 2) (.reg 1) (.lit 21845), []) := by decide
theorem test_decode_not : decode [14, 32769, 32768] = .ok (.not (.reg 1) (.reg 0), []) := by decide
theorem test_decode_rmem : decode [15, 32768, 100] = .ok (.rmem (.reg 0) (.lit 100), []) := by decide
theorem test_decode_wmem : decode [16, 100, 32775] = .ok (.wmem (.lit 100) (.reg 7), []) := by decide
theorem test_decode_call : decode [17, 10] = .ok (.call (.lit 10), []) := by decide
theorem test_decode_ret : decode [18] = .ok (.ret, []) := by decide
theorem test_decode_out : decode [19, 65] = .ok (.out (.lit 65), []) := by decide
theorem test_decode_in : decode [20, 32772] = .ok (.inp (.reg 4), []) := by decide
theorem test_decode_noop : decode [21, 0] = .ok (.noop, [0]) := by decide

/-- Vector E5. -/
theorem test_resolve_invalid : Operand.resolve 32776 = .bad 32776 ∧ Operand.resolve 65535 = .bad 65535 := by decide
/-- Vector E7. -/
theorem test_decode_unknown : decode [22] = .error (.unknownOpcode 22) := by decide
/-- R102: the third operand Word is missing. -/
theorem test_decode_truncated : decode [9, 32768, 1] = .error (.truncated 3) := by decide
/-- R88 in the table's numbering: `WMEM 100 r7` as one 48-bit number. -/
theorem test_decode_table_word : decodeTableWord 48 140767559680016 = some (.wmem (.lit 100) (.reg 7)) := by decide
theorem test_encode_add : encode (.add (.reg 1) (.reg 2) (.lit 4)) = [9, 32769, 32770, 4] := by decide

/-! ## The step and its faults (section 2.2 of the vectors) -/

theorem test_S1 : stepTo (at_ 0 [22]) faultView = some (true, 1, 0, 22, 0) := by decide
theorem test_S3 : stepTo (at_ 32766 [9, 32768]) faultView = some (true, 3, 32766, 32768, 32766) := by decide
theorem test_S5 : stepTo (at_ 40000 []) faultView = some (true, 3, 40000, 40000, 40000) := by decide
theorem test_S8 : stepTo (at_ 0 [9, 7, 40000, 0]) faultView = some (true, 2, 0, 7, 0) := by decide
theorem test_S9 : stepTo (at_ 0 [9, 32768, 1, 40000]) faultView = some (true, 2, 0, 40000, 0) := by decide
theorem test_S10 : stepTo (at_ 0 [11, 3, 5, 0]) faultView = some (true, 2, 0, 3, 0) := by decide
theorem test_S15 : step { at_ 0 [21] with run := .halted } = .fault .halted := by rfl
theorem test_fetch_word_runs : stepTo (State.reset.withFetchWord 16 18) (fun t => (t.run, t.pc)) = some (.halted, 1) := by
  decide

/-! ## The instructions (sections 2.3 to 2.10 of the vectors) -/

theorem test_H2 : stepTo (at_ 32767 [0]) (fun t => (t.run, t.pc)) = some (.halted, 32768) := by decide
theorem test_H4 : stepTo (at_ 32767 [21]) (fun t => (t.run, t.pc)) = some (.running, 32768) := by decide
theorem test_M1 : stepTo (at_ 0 [1, 32771, 1234]) (fun t => (t.reg 3, t.pc)) = some (1234, 3) := by decide
theorem test_M3 :
    stepTo ((at_ 0 [1, 32770, 32769]).setReg 1 65535) (fun t => (t.reg 2, t.reg 1)) = some (65535, 65535) := by decide
theorem test_M4 : stepTo (at_ 10 [2, 7]) (fun t => (t.stack, t.pc)) = some ([7], 12) := by decide
theorem test_S13 : stepTo { withStack (at_ 2 [2, 2]) [1] with stackCapacity := some 1 }
    (fun t => (faultView t, t.stack)) = some ((true, 6, 2, 2, 2), [1]) := by decide
theorem test_M6 : stepTo (withStack (at_ 0 [3, 32770]) [4, 1234]) (fun t => (t.reg 2, t.stack)) = some (4, [1234]) := by
  decide
theorem test_M7 : stepTo (at_ 0 [3, 32768]) (fun t => (t.reg 0, t.stack, t.run, t.pc)) =
    some (65535, [], .running, 2) := by decide
theorem test_Q2 : stepTo (at_ 0 [4, 32768, 5, 6]) (fun t => t.reg 0) = some 0 := by decide
theorem test_Q4 : stepTo ((at_ 0 [4, 32768, 32768, 32768]).setReg 0 9) (fun t => (t.reg 0, t.pc)) = some (1, 4) := by
  decide
theorem test_Q6 : stepTo (at_ 0 [5, 32768, 5, 5]) (fun t => t.reg 0) = some 0 := by decide
theorem test_Q8 : stepTo ((at_ 0 [5, 32768, 32769, 32767]).setReg 1 32768) (fun t => t.reg 0) = some 1 := by decide
theorem test_B2 : stepTo ((at_ 0 [6, 32768]).setReg 0 40000) (fun t => (t.pc, t.run)) = some (40000, .running) := by decide
theorem test_B4 : stepTo (at_ 11 [7, 32768, 3]) (fun t => t.pc) = some 14 := by decide
theorem test_B8 : stepTo (at_ 0 [7, 0, 32776]) faultView = some (true, 2, 0, 32776, 0) := by decide
theorem test_B6 : stepTo (at_ 0 [8, 0, 100]) (fun t => t.pc) = some 100 := by decide
theorem test_B7 : stepTo (at_ 0 [8, 1, 100]) (fun t => t.pc) = some 3 := by decide
theorem test_A3 : stepTo ((at_ 0 [9, 32768, 32769, 32769]).setReg 1 65535) (fun t => t.reg 0) = some 32766 := by decide
theorem test_S16 : stepTo ((at_ 0 [9, 32768, 32768, 32768]).setReg 0 3) (fun t => t.reg 0) = some 6 := by decide
theorem test_A6 : stepTo (at_ 0 [10, 32768, 32767, 32767]) (fun t => t.reg 0) = some 1 := by decide
theorem test_A9 : stepTo (at_ 0 [10, 32768, 85, 85]) (fun t => (t.reg 0, t.pc)) = some (7225, 4) := by decide
theorem test_A13 : stepTo (((at_ 0 [11, 32768, 32769, 32770]).setReg 1 40000).setReg 2 65535) (fun t => t.reg 0) =
    some 40000 := by decide
theorem test_S12 : stepTo (at_ 0 [11, 32768, 5, 32769]) faultView = some (true, 5, 0, 32769, 0) := by decide
theorem test_A16 : stepTo ((at_ 0 [12, 32768, 32769, 32769]).setReg 1 65535) (fun t => t.reg 0) = some 32767 := by decide
theorem test_A18 : stepTo (at_ 0 [13, 32768, 3855, 28784]) (fun t => t.reg 0) = some 32639 := by decide
theorem test_A19 : stepTo ((at_ 0 [13, 32768, 32769, 0]).setReg 1 32768) (fun t => t.reg 0) = some 0 := by decide
theorem test_A23 : stepTo (at_ 0 [14, 32768, 21845]) (fun t => (t.reg 0, t.pc)) = some (10922, 3) := by decide
theorem test_A25 : stepTo ((at_ 0 [14, 32768, 32769]).setReg 1 32768) (fun t => t.reg 0) = some 32767 := by decide
theorem test_T2 : stepTo (at_ 0 [15, 32768, 0]) (fun t => (t.reg 0, t.pc)) = some (15, 3) := by decide
theorem test_T4 : stepTo ((at_ 0 [15, 32768, 32769]).setReg 1 40000) faultView = some (true, 4, 0, 40000, 0) := by decide
theorem test_T7 : stepTo ((at_ 0 [16, 32768, 1]).setReg 0 32768) faultView = some (true, 4, 0, 32768, 0) := by decide
/-- Vector T9, and R54: the Word 7 at address 1 is the byte 7 at byte address 2. -/
theorem test_T9 : stepTo (at_ 0 [16, 1, 7]) (fun t => (t.mem.readWord 1, t.mem, t.pc)) =
    some (7, [(0, 16), (2, 7), (4, 7)], 3) := by decide
theorem test_K2 : stepTo (at_ 32766 [17, 0]) (fun t => (t.stack, t.pc)) = some ([32768], 0) := by decide
theorem test_K1 : stepTo (at_ 2 [17, 10]) (fun t => (t.stack, t.pc, t.traceDepth)) = some ([4], 10, 1) := by decide
theorem test_K4 : stepTo (withStack (at_ 20 [18]) [4, 1234]) (fun t => (t.stack, t.pc, t.traceDepth)) =
    some ([1234], 4, -1) := by decide
theorem test_K6 : stepTo (at_ 0 [18]) (fun t => (t.run, t.pc, t.fault.reason)) = some (.halted, 1, .none) := by decide
theorem test_I2 : stepTo ((at_ 0 [19, 32768]).setReg 0 40000) (fun t => t.output) = some [40000] := by decide
theorem test_I3 : stepTo (at_ 0 [19, 32776]) (fun t => (faultView t, t.output)) = some ((true, 2, 0, 32776, 0), []) := by
  decide
theorem test_I4 : stepTo ((at_ 0 [20, 32772]).deliver (.char 97)) (fun t => (t.reg 4, t.pc, t.input, t.consumed)) =
    some (97, 2, [], [.char 97]) := by decide
theorem test_I5 : stepTo (at_ 0 [20, 32772]) (fun t => (t.statusWord, t.pc, t.reg 4)) = some (4, 0, 0) := by decide
theorem test_I6 : stepTo ((at_ 0 [20, 32772]).deliver .eof) (fun t => (t.run, t.pc, t.reg 4, t.fault, t.inWait)) =
    some (.inputEnded, 0, 0, .clear, false) := by decide
theorem test_I7 : stepTo ((at_ 0 [20, 4]).deliver (.char 97)) (fun t => (faultView t, t.input)) =
    some ((true, 2, 0, 4, 0), [.char 97]) := by decide

/-! ## Load, status, tracing, assembler -/

/-- Vector E1. -/
theorem test_E1 : (match loadImage [0x09, 0x00, 0x01, 0x80, 0x02, 0x80, 0x04, 0x00] with
    | .ok (n, m) => some (n, m.wordsFrom 0 5)
    | .error _ => none) = some (4, [9, 32769, 32770, 4, 0]) := by decide
/-- Vector E2. -/
theorem test_E2 : loadImage [0, 0, 0] = .error .oddLength := by decide
/-- Vector E3. -/
theorem test_E3 : loadImage [] = .error .zeroWords := by decide
/-- R29: Faulted (2) with reason DivideByZero (5): 2 + 8 * 5. -/
theorem test_status_faulted : stepTo (at_ 0 [11, 32768, 5, 0]) (fun t => t.statusWord) = some 42 := by decide
/-- R228: the record of `CALL 10` at 2 while tracing; without tracing no record, and `trace_depth` moves all the same. -/
theorem test_trace_record :
    stepTo ((at_ 2 [17, 10]).setTraceEnable true) (fun t => (t.trace, t.traceDepth)) = some ([⟨2, 17, [10], 0⟩], 1) ∧
    stepTo ((at_ 2 [17, 10]).setTraceEnable false) (fun t => (t.trace, t.traceDepth)) = some ([], 1) := by decide
/-- R109: a run that has ended is observed with what it emitted; a run that goes on is not. -/
theorem test_observe : stepTo (at_ 0 [0]) (fun t => t.observe.map fun o => (o.run, o.pc, o.output)) =
      some (some (.halted, 1, [])) ∧ stepTo (at_ 0 [19, 65]) (fun t => t.observe) = some none := by decide
/-- R85: both spellings, a quoted character, and the text written. -/
theorem test_assemble_spaces : Assembler.assemble ['A', 'D', 'D', ' ', 'r', '1', ' ', 'r', '2', ' ', '4'] =
    some (.add (.reg 1) (.reg 2) (.lit 4)) := by decide
theorem test_assemble_commas : Assembler.assemble ['A', 'D', 'D', ' ', 'r', '0', ',', 'r', '0', ',', 'r', '0'] =
    some (.add (.reg 0) (.reg 0) (.reg 0)) := by decide
theorem test_assemble_quoted : Assembler.assemble ['O', 'U', 'T', ' ', '\'', 'A', '\''] = some (.out (.lit 65)) := by decide
theorem test_assembler_text : Assembler.text (.wmem (.lit 100) (.reg 7)) =
    some ['W', 'M', 'E', 'M', ' ', '1', '0', '0', ' ', 'r', '7'] := by decide

/-! ## Witnesses: states and operands that meet the hypotheses of the statements, at the edges of their ranges -/

theorem witness_ResolverClassifiesEveryWord :
    (32767 : Word).toNat ≤ 32767 ∧ (32768 ≤ (32768 : Word).toNat ∧ (32768 : Word).toNat ≤ 32775) ∧
    (32768 ≤ (32775 : Word).toNat ∧ (32775 : Word).toNat ≤ 32775) ∧ 32776 ≤ (32776 : Word).toNat := by decide
theorem witness_UndefinedOpcodesAreRejected : 22 ≤ (22 : Word).toNat ∧ 22 ≤ (65535 : Word).toNat := by decide
theorem witness_OpcodeAloneFixesTheLength :
    arities[(9 : Word).toNat]? = some 3 ∧ 3 ≤ ([32768, 1, 2] : List Word).length ∧
    ([32768, 1] : List Word).length < 3 := by decide
theorem witness_DecodeOfEncodeIsTheInstruction :
    Instr.encodable (.add (.reg 7) (.lit 32767) (.bad 32776)) = true := by decide
theorem witness_EncodeOfDecodeIsTheWords : decode [1, 5, 65535, 4] = .ok (.set (.lit 5) (.bad 65535), [4]) := by decide
theorem witness_StepRunsTheDecodedInstruction :
    (at_ 32764 [9, 32768, 1, 2]).run = .running ∧
    decode (fetchWords (at_ 32764 [9, 32768, 1, 2]).mem (at_ 32764 [9, 32768, 1, 2]).pc) =
      .ok (.add (.reg 0) (.lit 1) (.lit 2), []) := by decide
theorem witness_StepRunsTheInstructionAtPc :
    let s := at_ 32764 [9, 32768, 1, 2]
    let i := Instr.add (.reg 0) (.lit 1) (.lit 2)
    s.run = .running ∧ i.encodable = true ∧ s.pc.toNat + 1 + i.arity ≤ 32768 ∧
    ∀ k, k ≤ i.arity → (encode i)[k]? = some (s.mem.readWord (s.pc.toNat + k)) := by decide
theorem witness_EngineStepsExactlyWhileRunning :
    (∃ t, step (at_ 0 [21]) = .next t) ∧ (at_ 0 []).run = .running ∧ (at_ 0 []).halt.run = .halted ∧
    ((at_ 0 []).raiseFault .divideByZero 0).run = .faulted ∧ (at_ 0 []).endInput.run = .inputEnded :=
  ⟨⟨_, rfl⟩, by decide⟩
theorem witness_OpcodeFetchFaults :
    (at_ 32768 []).run = .running ∧ 32768 ≤ (at_ 32768 []).pc.toNat ∧ (at_ 32767 [22]).pc.toNat < 32768 ∧
    22 ≤ ((at_ 32767 [22]).mem.readWord (at_ 32767 [22]).pc.toNat).toNat := by decide
theorem witness_OperandFetchFaults :
    let s := at_ 32766 [9, 32768]
    s.run = .running ∧ s.pc.toNat < 32768 ∧ arities[(s.mem.readWord s.pc.toNat).toNat]? = some 3 ∧ 1 ≤ 2 ∧ 2 ≤ 3 ∧
    32768 ≤ s.pc.toNat + 2 ∧ ∀ j, j < 2 → 1 ≤ j → s.pc.toNat + j < 32768 := by decide
theorem witness_FirstIllegalOperandIsReported :
    (Instr.add (.reg 0) (.lit 1) (.bad 40000)).operands = [(.write, .reg 0), (.read, .lit 1)] ++ [(.read, .bad 40000)] ∧
    (∀ p ∈ [(Role.write, Operand.reg 0), (Role.read, Operand.lit 1)], p.2.legalIn p.1 = true) ∧
    (Operand.bad 40000).legalIn .read = false := by decide
/-- One witness for each of the three faults. -/
theorem witness_LegalOperandsLeaveOneOwnCheck :
    (∃ t, exec (.mod (.reg 0) (.lit 5) (.lit 0)) State.reset = .next t ∧ t.run = .faulted) ∧
    (∃ t, exec (.rmem (.reg 0) (.reg 1)) (State.reset.setReg 1 32768) = .next t ∧ t.run = .faulted) ∧
    (∃ t, exec (.wmem (.reg 1) (.lit 1)) (State.reset.setReg 1 32768) = .next t ∧ t.run = .faulted) ∧
    (∃ t, exec (.push (.lit 2)) { State.reset with stack := [1], stackCapacity := some 1 } = .next t ∧ t.run = .faulted) ∧
    (∃ t, exec (.call (.lit 5)) { State.reset with stack := [9], stackCapacity := some 1 } = .next t ∧ t.run = .faulted) :=
  ⟨⟨_, rfl, rfl⟩, ⟨_, rfl, rfl⟩, ⟨_, rfl, rfl⟩, ⟨_, rfl, rfl⟩, ⟨_, rfl, rfl⟩⟩
theorem witness_FaultsArePreciseAndTerminal : stepTo (at_ 0 [22]) (fun t => t.run) = some .faulted := by decide
/-- One witness for each way a run ends. -/
theorem witness_RunEndsInExactlyTheseWays :
    stepTo (at_ 0 [0]) (fun t => t.run) = some .halted ∧ stepTo (at_ 0 [18]) (fun t => t.run) = some .halted ∧
    stepTo (at_ 0 [22]) (fun t => t.run) = some .faulted ∧
    stepTo ((at_ 0 [20, 32768]).deliver .eof) (fun t => t.run) = some .inputEnded := by decide
theorem witness_FetchedInstructionsStandInsideMemory :
    fetchInstr (at_ 32764 [9, 32768, 1, 2]).mem (at_ 32764 [9, 32768, 1, 2]).pc =
      .ok (.add (.reg 0) (.lit 1) (.lit 2)) := by decide
theorem witness_OnlyTheWriteTargetRegisterChanges :
    (∃ t, exec (.set (.reg 3) (.lit 7)) State.reset = .next t ∧ t.reg 3 = 7) ∧
    (Instr.set (.reg 3) (.lit 7)).target? ≠ some 2 ∧ (∀ a b, Instr.set (.reg 3) (.lit 7) ≠ .wmem a b) :=
  ⟨⟨_, rfl, by decide⟩, by decide, by simp⟩
theorem witness_OnlyWmemChangesMemory :
    stepTo (at_ 0 [16, 32767, 89]) (fun t => t.mem.readWord 32767) = some 89 := by decide
theorem witness_StackChangesByOneEntryOnTop :
    stepTo (at_ 0 [2, 7]) (fun t => t.stack) = some [7] ∧
    stepTo (withStack (at_ 0 [3, 32768]) [7]) (fun t => t.stack) = some [] ∧
    stepTo (at_ 0 [17, 9]) (fun t => t.stack) = some [2] ∧
    stepTo (withStack (at_ 0 [18]) [7]) (fun t => t.stack) = some [] := by decide
theorem witness_OnlyInAndOutUseTheInterfaces :
    stepTo (at_ 0 [19, 65]) (fun t => t.output) = some [65] ∧
    stepTo ((at_ 0 [20, 32768]).deliver (.char 1)) (fun t => t.consumed) = some [.char 1] := by decide
/-- A state that waits for input meets the invariant, and its step answers a next state. -/
theorem witness_EveryStepKeepsTheInvariant :
    ∃ s t : State, s.inWait = true ∧ s.Inv ∧ step s = .next t := by
  refine ⟨(at_ 0 [20, 32772]).waitInput, _, rfl, ?_, rfl⟩
  refine ⟨by decide, by decide, by decide, by decide, ?_, ?_⟩
  · intro n h; cases h
  · intro _; exact ⟨rfl, 4, by decide⟩
theorem witness_ResetAndBootMeetTheInvariant :
    ∃ s t : State, s.Inv ∧ s.boot [21, 0] = .ok t := by
  refine ⟨at_ 0 [21], _, ?_, rfl⟩
  refine ⟨by decide, by decide, by decide, by decide, ?_, ?_⟩
  · intro n h; cases h
  · intro h; cases h
theorem witness_ResetSetsTheSpecsValues : ∃ s t : State, s.run = .halted ∧ s.boot [21, 0] = .ok t :=
  ⟨(at_ 0 [0]).halt, _, rfl, rfl⟩
theorem witness_LoaderFillsMemoryFromTheImage :
    (65536 < (List.replicate 65538 (0 : Byte)).length ∧ (List.replicate 65538 (0 : Byte)).length % 2 = 0) ∧
    (([1] : List Byte).length ≤ 65536 ∧ ([1] : List Byte).length % 2 = 1) ∧ ([] : List Byte).length = 0 ∧
    ((List.replicate 65536 (0 : Byte)).length ≤ 65536 ∧ (List.replicate 65536 (0 : Byte)).length % 2 = 0 ∧
      (List.replicate 65536 (0 : Byte)).length ≠ 0) := by
  simp only [List.length_replicate]; decide
theorem witness_StatusWordsShowTheState :
    State.reset.fault.reason = .none ∧ (State.reset.raiseFault .stackOverflow 9).fault.reason ≠ .none := by decide
theorem witness_TracingIsInvisible :
    (at_ 0 [17, 10]).untraced = ((at_ 0 [17, 10]).setTraceEnable true).untraced ∧
    (at_ 0 [17, 10]) ≠ ((at_ 0 [17, 10]).setTraceEnable true) ∧ (stepTo (at_ 0 [17, 10]) (fun t => t.pc)).isSome := by
  decide
theorem witness_CommittedStepsLeaveOneTraceRecord :
    (at_ 0 [21]).run = .running ∧ fetchInstr (at_ 0 [21]).mem (at_ 0 [21]).pc = .ok .noop ∧
    stepTo ((at_ 0 [21]).setTraceEnable true) (fun t => t.trace.length) = some 1 ∧
    stepTo (at_ 0 [21]) (fun t => t.trace.length) = some 0 := by decide
/-- A CALL that commits and one that faults, a RET that pops and one that halts, and another instruction. -/
theorem witness_TraceDepthFollowsCallAndRet :
    (fetchInstr (at_ 0 [17, 9]).mem 0 = .ok (.call (.lit 9)) ∧ fetchInstr (at_ 0 [18]).mem 0 = .ok .ret ∧
      fetchInstr (at_ 0 [21]).mem 0 = .ok .noop) ∧
    stepTo (at_ 0 [17, 9]) (fun t => (t.run, t.traceDepth)) = some (.running, 1) ∧
    stepTo { at_ 0 [17, 9] with stack := [1], stackCapacity := some 1 } (fun t => (t.run, t.traceDepth)) =
      some (.faulted, 0) ∧
    stepTo (withStack (at_ 0 [18]) [7]) (fun t => t.traceDepth) = some (-1) ∧
    stepTo (at_ 0 [18]) (fun t => t.traceDepth) = some 0 ∧ stepTo (at_ 0 [21]) (fun t => t.traceDepth) = some 0 := by
  decide
theorem witness_WaitingChangesOnlyInWait :
    (at_ 0 [20, 32772]).run = .running ∧
    fetchInstr (at_ 0 [20, 32772]).mem (at_ 0 [20, 32772]).pc = .ok (.inp (.reg 4)) ∧ (at_ 0 [20, 32772]).input = [] := by
  decide
theorem witness_PushThenPopGivesTheValueBack :
    State.reset.value? (.lit 4660) = some 4660 ∧ HasRoom State.reset ∧ ∃ t, exec (.push (.lit 4660)) State.reset = .next t :=
  ⟨rfl, (fun _ h => nomatch h), ⟨_, rfl⟩⟩
theorem witness_CallThenRetReturnsAfterTheCall :
    ∃ s t t' : State, s.value? (.lit 3) = some 3 ∧ HasRoom s ∧ exec (.call (.lit 3)) s = .next t ∧ t'.pc ≠ t.pc ∧
      t'.stack = t.stack ∧ t'.traceDepth = t.traceDepth := by
  refine ⟨State.reset, _, { State.reset with stack := [2], traceDepth := 1, pc := 77 }, rfl, (fun _ h => nomatch h), rfl, ?_⟩
  decide
theorem witness_AluResultsStayInRange :
    (State.reset.setReg 1 65535).value? (.reg 1) = some 65535 ∧ State.reset.value? (.lit 32767) = some 32767 ∧
    (32767 : Word).toNat ≤ 32767 ∧ (32767 : Word) ≠ 0 := by decide
theorem witness_StackOverflowNeedsAFullStack :
    stepTo { withStack (at_ 0 [17, 5]) [9] with stackCapacity := some 1 } (fun t => (t.run, t.fault.reason)) =
      some (.faulted, .stackOverflow) := by decide

/-- The part common to the statements of the instructions (their formats): a literal and an invalid Word are illegal write
targets, an invalid Word is an illegal read operand, a register is legal in both places; and for every opcode with
operands an instruction of it stands at 32767, running. -/
theorem witness_instruction_formats :
    (Operand.lit 5).legalIn .write = false ∧ (Operand.bad 32776).legalIn .write = false ∧
    (Operand.bad 32776).legalIn .read = false ∧ (Operand.reg 0).legalIn .write = true ∧
    (Operand.lit 32767).legalIn .read = true ∧
    ∀ p ∈ ([(1, 2), (2, 1), (3, 1), (4, 3), (5, 3), (6, 1), (7, 2), (8, 2), (9, 3), (10, 3), (11, 3), (12, 3), (13, 3),
        (14, 2), (15, 2), (16, 2), (17, 1), (19, 1), (20, 1)] : List (Word × Nat)),
      (at_ 32767 [p.1]).run = .running ∧ (at_ 32767 [p.1]).pc.toNat < 32768 ∧
      (at_ 32767 [p.1]).mem.readWord (at_ 32767 [p.1]).pc.toNat = p.1 ∧ 32768 ≤ (at_ 32767 [p.1]).pc.toNat + p.2 := by
  decide
/-- The operand values of the statements of SET, EQ, GT, JMP, JT, JF, ADD, MULT, MOD, AND, OR, NOT and OUT: a literal at its
largest value and a register with bit 15 set; the divisors of MOD, zero and not. -/
theorem witness_operand_values :
    State.reset.value? (.lit 32767) = some 32767 ∧ (State.reset.setReg 2 32768).value? (.reg 2) = some 32768 ∧
    32768 ≤ (32768 : Word).toNat ∧ State.reset.value? (.lit 0) = some 0 ∧ (32767 : Word) ≠ 0 := by decide
theorem witness_JmpSetsThePc :
    ∃ s t : State, s.run = .running ∧ s.value? (.reg 0) = some 32768 ∧ 32768 ≤ (32768 : Word).toNat ∧
      exec (.jmp (.reg 0)) s = .next t := ⟨State.reset.setReg 0 32768, _, rfl, by decide, by decide, rfl⟩
theorem witness_RmemReadsTheWord_and_WmemStoresTheWord :
    State.reset.value? (.lit 32767) = some 32767 ∧ (32767 : Word).toNat < 32768 ∧ State.reset.mem.wf = true ∧
    (State.reset.setReg 0 32768).value? (.reg 0) = some 32768 ∧ 32768 ≤ (32768 : Word).toNat := by decide
theorem witness_PushPutsTheValueOnTop_and_CallPushesNextAndJumps :
    (HasRoom State.reset ∧ State.reset.value? (.lit 7) = some 7) ∧
    HasRoom { State.reset with stack := [1], stackCapacity := some 2 } ∧
    ({ State.reset with stack := [1], stackCapacity := some 1 } : State).stackCapacity = some [(1 : Word)].length :=
  ⟨⟨(fun _ h => nomatch h), rfl⟩, (fun n h => by cases h; decide), rfl⟩
theorem witness_PopTakesTheTopOrTheSentinel_and_RetPopsThePcOrHalts :
    (withStack State.reset [4, 1234]).stack = 4 :: [1234] ∧ State.reset.stack = [] := by decide
theorem witness_InTakesACharacterWaitsOrEnds :
    (State.reset.deliver (.char 255)).input = .char 255 :: [] ∧ State.reset.input = [] ∧
    (State.reset.deliver .eof).input = .eof :: [] := by decide

end Sys2Proof.Tests
end

section
/-! SUPPORT. What an effect leaves unchanged, one lemma per field over the list
`Effect` gives of all effects, and the statements about what one step changes. -/

namespace Sys2Proof.Machine

open State

variable {i : Instr} {s t : State}

/-- No effect writes the fault record (10_state.md R27). -/
theorem Effect.fault_eq (h : Effect i s t) : t.fault = s.fault := by cases h <;> rfl

theorem Effect.traceEnable_eq (h : Effect i s t) : t.traceEnable = s.traceEnable := by cases h <;> rfl

theorem Effect.stackCapacity_eq (h : Effect i s t) : t.stackCapacity = s.stackCapacity := by cases h <;> rfl

/-- An effect keeps a run unfaulted. -/
theorem Effect.run_ne_faulted (h : Effect i s t) (hr : s.run = .running) : t.run ≠ .faulted := by
  cases h <;> simp [hr]

/-- Only WMEM has an effect on memory (20_memory.md R50). -/
theorem Effect.mem_eq (h : Effect i s t) (hi : ∀ a b, i ≠ .wmem a b) : t.mem = s.mem := by
  cases h with
  | store _ a b => exact absurd rfl (hi a b)
  | _ => rfl

/-- Every effect keeps memory canonical. -/
theorem Effect.mem_wf (h : Effect i s t) (hm : s.mem.wf = true) : t.mem.wf = true := by
  cases h with
  | store _ _ _ _ _ _ _ ha => exact Memory.wf_writeWord hm ha
  | _ => exact hm

/-- A register that is not the write target reads as before (10_state.md R24). -/
theorem Effect.reg_eq (h : Effect i s t) {j : RegIdx} (hj : i.target? ≠ some j) : t.reg j = s.reg j := by
  cases h with
  | write _ _ r v hr => rw [hr] at hj; exact (reg_setReg s r j v).trans (if_neg fun e => hj (by rw [e]))
  | popTop _ r v => exact (reg_setReg _ r j v).trans (if_neg fun e => hj (by rw [e]; rfl))
  | inChar _ r c => exact (reg_setReg _ r j _).trans (if_neg fun e => hj (by rw [e]; rfl))
  | _ => rfl

/-- The stack after an effect: as before, one entry more with room for it, or without its top (10_state.md R32, R33). -/
theorem Effect.stack_cases (h : Effect i s t) :
    t.stack = s.stack ∨
    (∃ a v, t.stack = v :: s.stack ∧ s.stackFull = false ∧ (i = .push a ∨ i = .call a)) ∨
    (∃ v, s.stack = v :: t.stack ∧ ((∃ r, i = .pop (.reg r)) ∨ i = .ret)) := by
  cases h with
  | push _ a v _ hf => exact .inr (.inl ⟨a, v, rfl, hf, .inl rfl⟩)
  | call _ a _ _ hf => exact .inr (.inl ⟨a, _, rfl, hf, .inr rfl⟩)
  | popTop _ r v _ hs => exact .inr (.inr ⟨v, hs, .inl ⟨r, rfl⟩⟩)
  | retPop _ v _ hs => exact .inr (.inr ⟨v, hs, .inr rfl⟩)
  | _ => exact .inl rfl

/-- A stack that is not full stays within its capacity with one entry more. -/
theorem length_lt_of_stackFull_eq_false {n : Nat} (hf : s.stackFull = false) (hn : s.stackCapacity = some n) :
    s.stack.length < n := by
  by_contra hle
  have hfull : s.stackFull = true := stackFull_iff.mpr ⟨n, hn, by omega⟩
  rw [hf] at hfull; cases hfull

/-- An effect keeps the stack within a finite capacity. -/
theorem Effect.stack_length_le (h : Effect i s t) {n : Nat} (hn : s.stackCapacity = some n) (hle : s.stack.length ≤ n) :
    t.stack.length ≤ n := by
  rcases h.stack_cases with hs | ⟨_, _, hs, hf, _⟩ | ⟨_, hs, _⟩
  · rwa [hs]
  · rw [hs]; exact length_lt_of_stackFull_eq_false hf hn
  · rw [hs] at hle; exact Nat.le_of_succ_le hle

/-- The state after an effect waits only after an IN that goes on waiting, or where another instruction found it waiting
(10_state.md R35). -/
theorem Effect.inWait_cases (h : Effect i s t) (hw : t.inWait = true) :
    (∃ r, i = .inp (.reg r) ∧ t = s.waitInput) ∨ (s.inWait = true ∧ ∀ a, i ≠ .inp a) := by
  cases h with
  | inWait _ r => exact .inl ⟨r, rfl, rfl⟩
  | inChar | inEof => cases hw
  | write _ _ _ _ _ hin => exact .inr ⟨hw, hin⟩
  | _ => exact .inr ⟨hw, by simp⟩

/-- Settles O18: a fault changes no register and no memory; an effect changes the write target and WMEM's Word alone. -/
theorem onlyTheWriteTargetRegisterChanges : Obligations.OnlyTheWriteTargetRegisterChanges := by
  intro s t i h
  rcases exec_ends h with he | ⟨reason, raw, -, rfl⟩
  · exact ⟨fun j hj => he.reg_eq hj, fun hi k => by rw [he.mem_eq hi], he.traceEnable_eq, he.stackCapacity_eq⟩
  · exact ⟨fun _ _ => rfl, fun _ _ => rfl, rfl, rfl⟩

/-- Settles O20: a fault leaves the stack, an effect changes its top at most. -/
theorem stackChangesByOneEntryOnTop : Obligations.StackChangesByOneEntryOnTop := by
  intro s t h
  obtain ⟨-, ⟨i, u, hf, hu, rfl⟩ | ⟨reason, raw, -, rfl⟩⟩ := step_cases h
  · rw [traced_stack, hf]
    rcases exec_ends hu with he | ⟨reason, raw, -, rfl⟩
    · rcases he.stack_cases with hs | ⟨a, v, hs, -, hi⟩ | ⟨v, hs, hi⟩
      · exact .inl hs
      · exact .inr (.inl ⟨a, v, hs, hi.imp (congrArg _) (congrArg _)⟩)
      · exact .inr (.inr ⟨v, hs, hi.imp (fun ⟨r, hr⟩ => ⟨r, congrArg _ hr⟩) (congrArg _)⟩)
    · exact .inl rfl
  · exact .inl rfl

end Sys2Proof.Machine
end

section
/-! SUPPORT. The invariant under each thing a step does: raise a fault, have an effect, add a trace record. -/

namespace Sys2Proof.Machine

open State

variable {i : Instr} {s t : State}

/-- The reason of a fetch fault is one of R211. -/
theorem fetchInstr_error_ne_none {m : Memory} {p raw : Word} {reason : FaultReason}
    (h : fetchInstr m p = .error (reason, raw)) : reason ≠ .none := by
  cases hd : decode (fetchWords m p) with
  | ok r => rw [fetchInstr_of_decode hd] at h; cases h
  | error e => rw [fetchInstr_of_error hd] at h; cases e <;> (cases h; simp)

/-- A trace record touches nothing the invariant speaks of. -/
theorem State.Inv.traced (ht : t.Inv) : (s.traced i t).Inv := by
  obtain ⟨hmem, hiff, hclear, hpc, hstack, hwait⟩ := ht
  constructor <;> simpa

/-- A fault keeps the invariant of a machine that is not waiting (40_execution_engine.md R106). -/
theorem State.Inv.raiseFault {reason : FaultReason} {raw : Word} (hs : s.Inv) (hr : reason ≠ .none)
    (hw : s.inWait = false) : (s.raiseFault reason raw).Inv where
  mem_wf := hs.mem_wf
  faulted_iff := by simp [hr]
  clear_record h := absurd h hr
  fault_pc _ := rfl
  stack_bound := hs.stack_bound
  waiting_in h := by simp [hw] at h

/-- A legal IN cannot raise a fault. -/
theorem not_ownFault_inp {r : RegIdx} {reason : FaultReason} : ¬ OwnFault (.inp (.reg r)) s reason := by
  intro h
  cases h with
  | operand _ _ p hp hl => simp [Instr.operands] at hp; subst hp; cases hl

/-- An effect of the fetched instruction keeps the invariant of a running machine. -/
theorem Effect.inv (h : Effect i s t) (hs : s.Inv) (hr : s.run = .running) (hf : fetchInstr s.mem s.pc = .ok i) :
    t.Inv := by
  have hnone : s.fault.reason = .none := by
    by_contra hne
    have := hs.faulted_iff.mpr hne
    rw [hr] at this; cases this
  have hrun := h.run_ne_faulted hr
  refine ⟨h.mem_wf hs.mem_wf, ?_, ?_, fun e => absurd e hrun, ?_, ?_⟩
  · simp [hrun, h.fault_eq, hnone]
  · rw [h.fault_eq]; exact hs.clear_record
  · intro n hn
    rw [h.stackCapacity_eq] at hn
    obtain ⟨hpos, hle⟩ := hs.stack_bound n hn
    exact ⟨hpos, h.stack_length_le hn hle⟩
  · intro hw
    rcases h.inWait_cases hw with ⟨r, rfl, rfl⟩ | ⟨hsw, hin⟩
    · exact ⟨hr, r, hf⟩
    · obtain ⟨-, r, hfr⟩ := hs.waiting_in hsw
      rw [hf] at hfr; cases hfr; exact absurd rfl (hin _)

/-- Only a machine that fetches a legal IN waits. -/
theorem State.Inv.inWait_eq_false (hs : s.Inv) (h : ∀ r, fetchInstr s.mem s.pc ≠ .ok (.inp (.reg r))) :
    s.inWait = false := by
  by_contra hw
  obtain ⟨-, r, hf⟩ := hs.waiting_in (by simpa using hw)
  exact h r hf

/-- One step keeps the invariant: a waiting machine stands at a legal IN, so no fault is raised while it waits. -/
theorem State.Inv.step (hs : s.Inv) (h : step s = .next t) : t.Inv := by
  obtain ⟨hr, ⟨i, u, hf, hu, rfl⟩ | ⟨reason, raw, hf, rfl⟩⟩ := step_cases h
  · refine State.Inv.traced ?_
    rcases exec_ends hu with he | ⟨reason, raw, hown, rfl⟩
    · exact he.inv hs hr hf
    · refine hs.raiseFault hown.reason_ne_none (hs.inWait_eq_false fun r hin => ?_)
      rw [hf] at hin; cases hin; exact not_ownFault_inp hown
  · exact hs.raiseFault (fetchInstr_error_ne_none hf) (hs.inWait_eq_false fun r hin => by rw [hf] at hin; cases hin)

/-- Settles O22: by what a step can do (`step_cases`, `exec_ends`), each end of an instruction keeping the invariant. -/
theorem everyStepKeepsTheInvariant : Obligations.EveryStepKeepsTheInvariant := fun _ _ hs h => hs.step h

end Sys2Proof.Machine
end

section
/-! SUPPORT. The decoder read backwards: the Words a decoded instruction came from (30_encoding.md R70, R71), and with them
where a fetched instruction stands. -/

namespace Sys2Proof

variable {i : Instr} {op : Word} {ws rest : List Word}

/-- The equation of a decoded instruction with its Words, from its opcode and its operand Words. -/
theorem encode_append_eq {ops : List Word} (ho : i.opcode.toNat = op.toNat) (hw : i.operandWords = ops) :
    encode i ++ rest = op :: (ops ++ rest) := by
  simp [encode, hw, BitVec.eq_of_toNat_eq ho]

theorem encode_append_of_decodeF1 {f : Operand → Instr} (h : decodeF1 f ws = .ok (i, rest))
    (ho : ∀ a, (f a).opcode.toNat = op.toNat) (hw : ∀ a, (f a).operandWords = [a.word]) :
    encode i ++ rest = op :: ws := by
  match ws with
  | a :: _ => cases h; simp [encode_append_eq (ho _) (hw _), Operand.word_resolve]
  | [] => cases h

theorem encode_append_of_decodeF2 {f : Operand → Operand → Instr} (h : decodeF2 f ws = .ok (i, rest))
    (ho : ∀ a b, (f a b).opcode.toNat = op.toNat) (hw : ∀ a b, (f a b).operandWords = [a.word, b.word]) :
    encode i ++ rest = op :: ws := by
  match ws with
  | a :: b :: _ => cases h; simp [encode_append_eq (ho _ _) (hw _ _), Operand.word_resolve]
  | [_] => cases h
  | [] => cases h

theorem encode_append_of_decodeF3 {f : Operand → Operand → Operand → Instr} (h : decodeF3 f ws = .ok (i, rest))
    (ho : ∀ a b c, (f a b c).opcode.toNat = op.toNat)
    (hw : ∀ a b c, (f a b c).operandWords = [a.word, b.word, c.word]) :
    encode i ++ rest = op :: ws := by
  match ws with
  | a :: b :: c :: _ => cases h; simp [encode_append_eq (ho _ _ _) (hw _ _ _), Operand.word_resolve]
  | [_, _] => cases h
  | [_] => cases h
  | [] => cases h

/-- The Words a decoded instruction came from are its encoding; the cases are the opcodes 0 to 21 in order, grouped by format. -/
theorem encode_append_of_decode (h : decode ws = .ok (i, rest)) : encode i ++ rest = ws := by
  cases ws with
  | nil => cases h
  | cons op ws =>
    simp only [decode] at h
    split at h
    case h_1 hop | h_19 hop | h_22 hop => cases h; exact encode_append_eq (ops := []) hop.symm rfl
    case h_3 hop | h_4 hop | h_7 hop | h_18 hop | h_20 hop | h_21 hop =>
      exact encode_append_of_decodeF1 h (fun _ => hop.symm) (fun _ => rfl)
    case h_2 hop | h_8 hop | h_9 hop | h_15 hop | h_16 hop | h_17 hop =>
      exact encode_append_of_decodeF2 h (fun _ _ => hop.symm) (fun _ _ => rfl)
    case h_5 hop | h_6 hop | h_10 hop | h_11 hop | h_12 hop | h_13 hop | h_14 hop =>
      exact encode_append_of_decodeF3 h (fun _ _ _ => hop.symm) (fun _ _ _ => rfl)
    case h_23 => cases h

/-- An instruction is one Word longer than its arity (30_encoding.md R70). -/
theorem length_encode (i : Instr) : (encode i).length = 1 + i.arity := by
  simp [encode, Instr.operandWords, Instr.arity, Nat.add_comm]

end Sys2Proof

namespace Sys2Proof.Machine

variable {m : Memory} {p : Word} {i : Instr}

/-- A fetched instruction stands inside memory: the fetch reads only Words that are there (20_memory.md R53). -/
theorem fetchInstr_inside (h : fetchInstr m p = .ok i) : p.toNat + 1 + i.arity ≤ 32768 := by
  obtain ⟨rest, hd⟩ := fetchInstr_ok.mp h
  have hlen : 1 + i.arity + rest.length = min 4 (32768 - p.toNat) := by
    rw [← length_encode, ← List.length_append, encode_append_of_decode hd]
    exact Memory.length_wordsFrom m p.toNat 4
  omega

/-- Inside memory the sequential successor does not wrap (40_execution_engine.md R105). -/
theorem State.seqPc_toNat (s : State) {n : Nat} (h : s.pc.toNat + 1 + n ≤ 32768) :
    (s.seqPc n).toNat = s.pc.toNat + 1 + n := by
  simp only [State.seqPc, BitVec.toNat_add, BitVec.toNat_ofNat]
  omega

/-- Settles O17: the fetch reads the instruction's `1 + arity` Words from inside memory. -/
theorem fetchedInstructionsStandInsideMemory : Obligations.FetchedInstructionsStandInsideMemory := fun s _ h =>
  ⟨fetchInstr_inside h, s.seqPc_toNat (fetchInstr_inside h)⟩

end Sys2Proof.Machine
end

section
/-! SUPPORT. Tracing blanked out: every operation of a meaning does the same on a state without its tracing (10_state.md R40). -/

namespace Sys2Proof.Machine

/-- The outcome with the tracing of its next state blanked out. -/
def Outcome.untraced : Outcome → Outcome
  | .next t    => .next t.untraced
  | .fault r   => .fault r
  | .refused r => .refused r

/-- An outcome that is a next state up to tracing is a next state. -/
theorem Outcome.untraced_eq_next {o : Outcome} {u : State} (h : Outcome.untraced o = .next u) :
    ∃ t, o = .next t ∧ u = t.untraced := by
  cases o with
  | next t => cases h; exact ⟨t, rfl, rfl⟩
  | fault | refused => cases h

namespace State

variable {s : State}

@[simp] theorem untraced_mem : s.untraced.mem = s.mem := rfl
@[simp] theorem untraced_pc : s.untraced.pc = s.pc := rfl
@[simp] theorem untraced_run : s.untraced.run = s.run := rfl
@[simp] theorem untraced_stack : s.untraced.stack = s.stack := rfl
@[simp] theorem untraced_input : s.untraced.input = s.input := rfl
@[simp] theorem untraced_stackFull : s.untraced.stackFull = s.stackFull := rfl
@[simp] theorem untraced_value? (o : Operand) : s.untraced.value? o = s.value? o := rfl

/-- A trace record is blanked out with the rest of the tracing. -/
@[simp] theorem untraced_traced (i : Instr) (t : State) : (s.traced i t).untraced = t.untraced := by
  unfold traced; split <;> rfl

@[simp] theorem untraced_outcome_traced (i : Instr) (o : Outcome) :
    Outcome.untraced (Outcome.traced s i o) = Outcome.untraced o := by
  cases o with
  | next t => simp [Outcome.untraced]
  | fault | refused => rfl

theorem source_untraced {o : Operand} {k k' : Word → Outcome}
    (hk : ∀ v, Outcome.untraced (k v) = Outcome.untraced (k' v)) :
    Outcome.untraced (s.untraced.source o k) = Outcome.untraced (s.source o k') := by
  simp only [source, untraced_value?]
  split
  · exact hk _
  · rfl

theorem target_untraced {o : Operand} {k k' : RegIdx → Outcome}
    (hk : ∀ r, Outcome.untraced (k r) = Outcome.untraced (k' r)) :
    Outcome.untraced (s.untraced.target o k) = Outcome.untraced (s.target o k') := by
  cases o with
  | reg r => exact hk r
  | lit | bad => rfl

theorem dataAddress_untraced {a : Word} {k k' : Nat → Outcome}
    (hk : ∀ n, Outcome.untraced (k n) = Outcome.untraced (k' n)) :
    Outcome.untraced (s.untraced.dataAddress a k) = Outcome.untraced (s.dataAddress a k') := by
  unfold dataAddress
  split
  · exact hk _
  · rfl

theorem pushing_untraced {v : Word} {k : State → Outcome}
    (hk : Outcome.untraced (k (s.untraced.push v)) = Outcome.untraced (k (s.push v))) :
    Outcome.untraced (s.untraced.pushing v k) = Outcome.untraced (s.pushing v k) := by
  cases hf : s.stackFull with
  | true => simp only [pushing, untraced_stackFull, hf, if_true]; rfl
  | false => simpa [pushing, hf] using hk

/-- The instructions with a write target and two read operands whose effect is a plain result. -/
theorem result3_untraced {a b c : Operand} {g : Word → Word → Word} :
    Outcome.untraced (s.untraced.target a fun i => s.untraced.source b fun vb => s.untraced.source c fun vc =>
      s.untraced.writeBack 3 i (g vb vc)) =
    Outcome.untraced (s.target a fun i => s.source b fun vb => s.source c fun vc => s.writeBack 3 i (g vb vc)) :=
  target_untraced fun _ => source_untraced fun _ => source_untraced fun _ => rfl

end State

open State

variable {s s' t : State}

/-- An instruction does the same without tracing. -/
theorem exec_untraced (i : Instr) (s : State) :
    Outcome.untraced (exec i s.untraced) = Outcome.untraced (exec i s) := by
  cases i with
  | halt | noop => rfl
  | eq | gt | add | mult | and | or => exact result3_untraced
  | set | not => exact target_untraced fun _ => source_untraced fun _ => rfl
  | mod a b c =>
    refine target_untraced fun _ => source_untraced fun _ => source_untraced fun _ => ?_
    split <;> rfl
  | rmem => exact target_untraced fun _ => source_untraced fun _ => dataAddress_untraced fun _ => rfl
  | wmem => exact source_untraced fun _ => source_untraced fun _ => dataAddress_untraced fun _ => rfl
  | jmp | out => exact source_untraced fun _ => rfl
  | jt | jf =>
    refine source_untraced fun _ => source_untraced fun _ => ?_
    split <;> rfl
  | push | call => exact source_untraced fun _ => pushing_untraced rfl
  | pop =>
    refine target_untraced fun _ => ?_
    simp only [pop?, untraced_stack]
    cases s.stack <;> rfl
  | ret =>
    simp only [exec, execRet, pop?, untraced_stack]
    cases s.stack <;> rfl
  | inp =>
    refine target_untraced fun _ => ?_
    simp only [untraced_input]
    cases s.input with
    | nil => rfl
    | cons ans => cases ans <;> rfl

/-- So does a step. -/
theorem step_untraced (s : State) : Outcome.untraced (step s.untraced) = Outcome.untraced (step s) := by
  simp only [step, untraced_run, untraced_mem, untraced_pc]
  split
  · rfl
  · split
    · simp only [untraced_outcome_traced, exec_untraced]
    · rfl

/-- Settles O27: both steps are the step of the one state without tracing, up to tracing. -/
theorem tracingIsInvisible : Obligations.TracingIsInvisible := by
  intro s s' t hs h
  have hu : Outcome.untraced (step s') = .next t.untraced := by
    rw [← step_untraced, ← hs, step_untraced, h]; rfl
  exact Outcome.untraced_eq_next hu

end Sys2Proof.Machine
end

section
/-! SUPPORT. Reset, the loader and the status registers (10_state.md R29, R41; 70_reset_and_hazards.md R240 to R242). -/

namespace Sys2Proof.Machine

variable {s t : State}

/-! ## Bit vectors joined -/

/-- A Word joined from two bytes, as the image gives them (20_memory.md R54). -/
theorem append_eq_or_shiftLeft (h l : Byte) : (h ++ l : Word) = l.setWidth 16 ||| h.setWidth 16 <<< 8 := by
  apply BitVec.eq_of_getLsbD_eq
  intro i hi
  simp only [BitVec.getLsbD_append, BitVec.getLsbD_or, BitVec.getLsbD_shiftLeft, BitVec.getLsbD_setWidth]
  by_cases hl : i < 8
  · simp [hl, show i < 16 by omega]
  · simp [hl, show i < 16 by omega, show i - 8 < 16 by omega, BitVec.getLsbD_of_ge l i (by omega)]

/-- The value of a joined bit vector: the left part stands above the right. -/
theorem toNat_append_eq_add {m n : Nat} (x : BitVec m) (y : BitVec n) : (x ++ y).toNat = x.toNat * 2 ^ n + y.toNat := by
  rw [BitVec.toNat_append, ← Nat.shiftLeft_add_eq_or_of_lt y.isLt, Nat.shiftLeft_eq]

/-! ## Reset and load -/

/-- After reset, with any canonical memory loaded, the invariant holds: of the host's inputs it asks a positive capacity alone. -/
theorem inv_applyReset_with_mem {m : Memory} (hcap : ∀ n, s.stackCapacity = some n → 0 < n) (hm : m.wf = true) :
    State.Inv { s.applyReset with mem := m } where
  mem_wf := hm
  faulted_iff := by simp [State.applyReset, State.reset]
  clear_record _ := rfl
  fault_pc h := by cases h
  stack_bound n hn := ⟨hcap n hn, Nat.zero_le n⟩
  waiting_in h := by cases h

/-- What a boot that starts a run has loaded. -/
theorem boot_ok {image : List Byte} (h : s.boot image = .ok t) :
    image.length ≤ Config.memBytes ∧ image.length % 2 = 0 ∧
      t = { s.applyReset with mem := Memory.ofBytes 0 image } := by
  unfold State.boot loadImage at h
  split at h
  · next m hl =>
    split at hl
    · cases hl
    · split at hl
      · cases hl
      · split at hl
        · cases hl
        · cases hl; cases h; exact ⟨by omega, by omega, rfl⟩
  · cases h

/-- Settles O23: all three are a reset with a canonical memory. -/
theorem resetAndBootMeetTheInvariant : Obligations.ResetAndBootMeetTheInvariant := by
  have hcap : ∀ s : State, s.Inv → ∀ n, s.stackCapacity = some n → 0 < n := fun s hs n hn => (hs.stack_bound n hn).1
  refine ⟨?_, fun s hs => ?_, fun s t image hs h => ?_⟩
  · exact inv_applyReset_with_mem (s := .reset) (m := []) (fun n hn => by cases hn) rfl
  · exact inv_applyReset_with_mem (hcap s hs) hs.mem_wf
  · obtain ⟨hlen, -, rfl⟩ := boot_ok h
    exact inv_applyReset_with_mem (hcap s hs) (Memory.wfFrom_ofBytes (by omega))

/-- The Word at an address of a loaded image (R241). -/
theorem readWord_ofBytes {image : List Byte} (h : image.length ≤ Config.memBytes) (k : Nat) :
    (Memory.ofBytes 0 image).readWord k =
      (image.getD (2 * k) 0).setWidth 16 ||| (image.getD (2 * k + 1) 0).setWidth 16 <<< 8 := by
  have hbyte : ∀ a, (Memory.ofBytes 0 image).readByte a = image.getD a 0 := fun a => by
    rw [Memory.readByte_ofBytes (by omega)]; simp
  rw [Memory.readWord, hbyte, hbyte, append_eq_or_shiftLeft]

/-- Past the end of a loaded image every Word is 0 (R241, decision D14). -/
theorem readWord_ofBytes_past {image : List Byte} (h : image.length ≤ Config.memBytes) {k : Nat}
    (hk : image.length ≤ 2 * k) : (Memory.ofBytes 0 image).readWord k = 0 := by
  rw [readWord_ofBytes h, List.getD_eq_default _ _ hk, List.getD_eq_default _ _ (by omega)]; rfl

/-- After reset every register reads 0 (R41). -/
@[simp] theorem reg_applyReset (s : State) (i : RegIdx) : s.applyReset.reg i = 0 :=
  Vector.getElem_replicate i.isLt

/-- Settles O24: the reset values, and the Words of the loaded image. -/
theorem resetSetsTheSpecsValues : Obligations.ResetSetsTheSpecsValues := by
  refine ⟨fun s => ⟨rfl, reg_applyReset s, rfl, rfl, rfl, rfl, rfl, rfl, rfl⟩, fun s t image h => ?_⟩
  obtain ⟨hlen, heven, rfl⟩ := boot_ok h
  refine ⟨rfl, fun k => ?_⟩
  split
  · exact readWord_ofBytes hlen k
  · exact readWord_ofBytes_past hlen (by omega)

/-! ## Status -/

/-- The fields of STATUS, each at its place (R29). -/
theorem statusWord_toNat (s : State) :
    s.statusWord.toNat = s.run.code.toNat + 4 * s.inWait.toNat + 8 * s.fault.reason.code.toNat := by
  simp only [State.statusWord, toNat_append_eq_add, BitVec.toNat_ofBool, BitVec.reduceToNat]
  omega

/-- Settles O26: STATUS field by field, the record's two Words by the reason. -/
theorem statusWordsShowTheState : Obligations.StatusWordsShowTheState := by
  intro s
  refine ⟨?_, fun h => ?_, fun h => ?_, BitVec.eq_of_toNat_eq (by rw [statusWord_toNat]; rfl), rfl, rfl⟩
  · rw [statusWord_toNat]
    refine congrArg₂ (· + ·) (congrArg₂ (· + ·) ?_ ?_) (congrArg (8 * ·) ?_)
    · cases s.run <;> rfl
    · cases s.inWait <;> rfl
    · cases s.fault.reason <;> rfl
  · simp [State.faultPcWord, State.faultRawWord, h]
  · simp [State.faultPcWord, State.faultRawWord, h]

end Sys2Proof.Machine
end

section
/-! SUPPORT. IN, answer by answer, and the part the formats of the instructions have in common (48_io.md R201, R202;
40_execution_engine.md R102, R103). -/

namespace Sys2Proof.Machine

open State

variable {s : State} {r : RegIdx}

/-- IN with a character ready (R201). -/
theorem exec_inp_char {c : Byte} {rest : List InputAnswer} (h : s.input = .char c :: rest) :
    exec (.inp (.reg r)) s = .next (((s.takeAnswer (.char c) rest).setReg r (c.setWidth 16)).advance 1) := by
  simp [exec, execIn, h]

/-- IN with no answer yet (R201). -/
theorem exec_inp_wait (h : s.input = []) : exec (.inp (.reg r)) s = .next s.waitInput := by
  simp [exec, execIn, h]

/-- IN at end of input (R202). -/
theorem exec_inp_eof {rest : List InputAnswer} (h : s.input = .eof :: rest) :
    exec (.inp (.reg r)) s = .next (s.takeAnswer .eof rest).endInput := by
  simp [exec, execIn, h]

/-- A step that committed nothing leaves no trace record (log 12). -/
theorem State.traced_of_not_committed {i : Instr} {t : State} (h : t.committed = false) : s.traced i t = t := by
  simp [State.traced, h]

/-- A step at an IN with no answer goes on waiting (R201). -/
theorem step_waitInput (hr : s.run = .running) (hf : fetchInstr s.mem s.pc = .ok (.inp (.reg r))) (hi : s.input = []) :
    step s = .next s.waitInput := by
  rw [step_of_fetch hr hf, exec_inp_wait hi, traced_next, traced_of_not_committed]
  simp [committed, hr]

/-- A step at an IN with a character ready takes it (R201). -/
theorem step_inp_char {c : Byte} {rest : List InputAnswer} (hr : s.run = .running)
    (hf : fetchInstr s.mem s.pc = .ok (.inp (.reg r))) (hi : s.input = .char c :: rest) :
    step s = .next (s.traced (.inp (.reg r)) (((s.takeAnswer (.char c) rest).setReg r (c.setWidth 16)).advance 1)) := by
  rw [step_of_fetch hr hf, exec_inp_char hi, traced_next]

/-- Settles O30: the wait is a step to `waitInput`, which meets the same hypotheses again until an answer is delivered. -/
theorem waitingChangesOnlyInWait : Obligations.WaitingChangesOnlyInWait := by
  intro s r hr hf hi
  refine ⟨step_waitInput hr hf hi, step_waitInput (s := s.waitInput) hr hf hi, fun c => ?_⟩
  have hin : (s.waitInput.deliver (.char c)).input = [.char c] := by simp [deliver, hi]
  refine ⟨_, step_inp_char (s := s.waitInput.deliver (.char c)) hr hf hin, traced_inWait .., ?_, traced_pc ..⟩
  exact (reg_congr (traced_regs ..) r).trans (reg_setReg_same ..)

end Sys2Proof.Machine

namespace Sys2Proof.Rules

open Sys2Proof Sys2Proof.Machine

variable {op : Word} {ra : Role}

/-- An instruction whose decoder names the first missing Word faults at 32768 when it would pass the end of memory (R102). -/
theorem faultsPastMemoryEnd_of_truncated {n : Nat} (hn : n ≤ 3)
    (hd : ∀ ws, ws.length < n → decode (op :: ws) = .error (.truncated (1 + ws.length))) :
    FaultsPastMemoryEnd op n := by
  intro s hr hp hw hend
  have hlen : (s.mem.wordsFrom (s.pc.toNat + 1) 3).length = min 3 (32768 - (s.pc.toNat + 1)) :=
    Memory.length_wordsFrom ..
  have hdec : decode (fetchWords s.mem s.pc) = .error (.truncated (32768 - s.pc.toNat)) := by
    rw [fetchWords_inside hp, hw, hd _ (by omega), hlen]
    congr 2; omega
  have hpc : s.pc + BitVec.ofNat 16 (32768 - s.pc.toNat) = 32768 := by
    apply BitVec.eq_of_toNat_eq
    simp; omega
  have hf := fetchInstr_of_error hdec
  rw [fetchFault, hpc] at hf
  exact step_of_fetch_fault hr hf

/-- Format F1 without its operand Word. -/
theorem decodeF1_truncated {f : Operand → Instr} {ws : List Word} (h : ws.length < 1) :
    decodeF1 f ws = .error (.truncated (1 + ws.length)) := by
  match ws with
  | [] => rfl

/-- An instruction of format F1 whose meaning checks its operand first. -/
theorem formatF1_of {f : Operand → Instr} (hd : ∀ ws, decode (op :: ws) = decodeF1 f ws)
    (hx : ∀ s a, a.legalIn ra = false → exec (f a) s = .next (s.raiseFault .invalidRegister a.word)) :
    FormatF1 op ra f :=
  ⟨fun a rest => hd (a :: rest), hx,
    faultsPastMemoryEnd_of_truncated (by decide) fun ws h => (hd ws).trans (decodeF1_truncated h)⟩

/-- Settles O56: the format is F1 with a write target; the three ends are IN's three answers. -/
theorem inTakesACharacterWaitsOrEnds : Obligations.InTakesACharacterWaitsOrEnds :=
  ⟨formatF1_of (fun _ => rfl) fun _ _ hl => State.target_illegal hl _,
    fun _ _ => ⟨fun _ _ h => by rw [BitVec.ofNat_toNat]; exact exec_inp_char h, exec_inp_wait, fun _ h => exec_inp_eof h⟩⟩

end Sys2Proof.Rules
end

section
/-! SUPPORT. Memory under one step, and WMEM: its format F2, its store and its own fault (20_memory.md R50, R54;
46_memory_access.md R181; 40_execution_engine.md R103). -/

namespace Sys2Proof.Machine

open State

variable {i : Instr} {s t : State} {a b : Operand} {addr v : Word}

/-- Memory after an effect: as before, or with WMEM's one Word stored (20_memory.md R50). -/
theorem Effect.mem_cases (h : Effect i s t) :
    t.mem = s.mem ∨
    ∃ a b addr v, i = .wmem a b ∧ s.value? a = some addr ∧ s.value? b = some v ∧
      addr.toNat < Config.memWords ∧ t.mem = s.mem.writeWord addr.toNat v := by
  cases h with
  | store _ a b addr v ha hb hin => exact .inr ⟨a, b, addr, v, rfl, ha, hb, hin, rfl⟩
  | _ => exact .inl rfl

/-- Settles O19: a fault leaves memory, an effect stores WMEM's Word at most. -/
theorem onlyWmemChangesMemory : Obligations.OnlyWmemChangesMemory := by
  intro s t h
  obtain ⟨-, ⟨i, u, hf, hu, rfl⟩ | ⟨reason, raw, -, rfl⟩⟩ := step_cases h
  · rw [traced_mem, hf]
    rcases exec_ends hu with he | ⟨reason, raw, -, rfl⟩
    · exact he.mem_cases.imp_right fun ⟨a, b, addr, v, hi, hrest⟩ => ⟨a, b, addr, v, congrArg _ hi, hrest⟩
    · exact .inl rfl
  · exact .inl rfl

/-- A legal read operand has a value for the instruction to go on with (40_execution_engine.md R104). -/
theorem State.source_legal {o : Operand} (h : o.legalIn .read = true) (k : Word → Outcome) : ∃ v, s.source o k = k v := by
  obtain ⟨v, hv⟩ := Option.isSome_iff_exists.mp ((value?_isSome (s := s) o).trans h)
  exact ⟨v, source_some hv k⟩

theorem State.dataAddress_inside (h : addr.toNat < Config.memWords) (k : Nat → Outcome) :
    s.dataAddress addr k = k addr.toNat := if_pos h

theorem State.dataAddress_outside (h : Config.memWords ≤ addr.toNat) (k : Nat → Outcome) :
    s.dataAddress addr k = .next (s.raiseFault .dataOutOfRange addr) := if_neg (Nat.not_lt.mpr h)

/-- WMEM with legal operands is left with the check of its address (R181). -/
theorem exec_wmem (ha : s.value? a = some addr) (hb : s.value? b = some v) :
    exec (.wmem a b) s = s.dataAddress addr fun n => .next ((s.storeWord n v).advance 2) :=
  (source_some ha _).trans (source_some hb _)

/-- WMEM reports an illegal second operand after a legal first one (R103). -/
theorem exec_wmem_illegal_snd (ha : a.legalIn .read = true) (hb : b.legalIn .read = false) :
    exec (.wmem a b) s = .next (s.raiseFault .invalidRegister b.word) := by
  obtain ⟨va, h⟩ := source_legal ha fun va =>
    s.source b fun vb => s.dataAddress va fun n => .next ((s.storeWord n vb).advance 2)
  exact h.trans (source_none hb _)

end Sys2Proof.Machine

namespace Sys2Proof.Rules

open Sys2Proof Sys2Proof.Machine

variable {op : Word} {ra : Role}

/-- Format F2 without one of its operand Words. -/
theorem decodeF2_truncated {f : Operand → Operand → Instr} {ws : List Word} (h : ws.length < 2) :
    decodeF2 f ws = .error (.truncated (1 + ws.length)) := by
  match ws with
  | [] | [_] => rfl

/-- An instruction of format F2 whose meaning checks its first operand, then its second. -/
theorem formatF2_of {f : Operand → Operand → Instr} (hd : ∀ ws, decode (op :: ws) = decodeF2 f ws)
    (ha : ∀ s a b, a.legalIn ra = false → exec (f a b) s = .next (s.raiseFault .invalidRegister a.word))
    (hb : ∀ s a b, a.legalIn ra = true → b.legalIn .read = false →
      exec (f a b) s = .next (s.raiseFault .invalidRegister b.word)) :
    FormatF2 op ra f :=
  ⟨fun a b rest => hd (a :: b :: rest), fun s a b => ⟨ha s a b, hb s a b⟩,
    faultsPastMemoryEnd_of_truncated (by decide) fun ws h => (hd ws).trans (decodeF2_truncated h)⟩

theorem formatF2_wmem : FormatF2 16 .read .wmem :=
  formatF2_of (fun _ => rfl) (fun _ _ _ hl => State.source_none hl _) fun _ _ _ => exec_wmem_illegal_snd

/-- Settles O52: the format is F2 with two read operands; the address check goes on to the store, whose reads are the laws of
`writeWord`, or raises the fault. -/
theorem wmemStoresTheWord : Obligations.WmemStoresTheWord := by
  refine ⟨formatF2_wmem, fun s a b addr v ha hb => ⟨fun hin => ?_, fun hout => ?_⟩⟩
  · refine ⟨s.mem.writeWord addr.toNat v, (exec_wmem ha hb).trans (State.dataAddress_inside hin _), fun hm => ?_⟩
    refine ⟨Memory.wf_writeWord hm hin, ?_, fun k hk => ?_, fun k hlo hhi => ?_⟩
    · rw [Memory.readWord_writeWord hm hin, if_pos rfl]
    · rw [Memory.readWord_writeWord hm hin, if_neg hk]
    · rw [Memory.readByte_writeWord hm hin, if_neg hhi, if_neg hlo]
  · exact (exec_wmem ha hb).trans (State.dataAddress_outside hout _)

end Sys2Proof.Rules
end

section
/-! SUPPORT. The decoder and the encoder as inverses (30_encoding.md R70, R71, R74, R76), the length an opcode fixes (R72), and
the step of the instruction whose Words stand at `pc` (40_execution_engine.md R100). -/

namespace Sys2Proof

variable {i : Instr} {a b c : Operand} {op : Word} {ws rest : List Word}

/-! ## Round trips -/

/-- An operand is what its Word resolves to exactly when some Word resolves to it (R76). -/
theorem Operand.resolve_word_iff {o : Operand} : Operand.resolve o.word = o ↔ o.canonical = true :=
  ⟨fun h => h ▸ Operand.canonical_resolve _, Operand.resolve_word⟩

theorem decodeF1_word_iff {f : Operand → Instr} (hf : ∀ {a a'}, f a = f a' → a = a') :
    decodeF1 f (a.word :: rest) = .ok (f a, rest) ↔ [a].all Operand.canonical = true := by
  have hinj : ∀ a', f a' = f a ↔ a' = a := fun _ => ⟨hf, fun h => h ▸ rfl⟩
  simp [hinj, Operand.resolve_word_iff]

theorem decodeF2_words_iff {f : Operand → Operand → Instr} (hf : ∀ {a b a' b'}, f a b = f a' b' → a = a' ∧ b = b') :
    decodeF2 f (a.word :: b.word :: rest) = .ok (f a b, rest) ↔ [a, b].all Operand.canonical = true := by
  have hinj : ∀ a' b', f a' b' = f a b ↔ a' = a ∧ b' = b := fun _ _ => ⟨hf, fun ⟨ha, hb⟩ => ha ▸ hb ▸ rfl⟩
  simp [hinj, Operand.resolve_word_iff]

theorem decodeF3_words_iff {f : Operand → Operand → Operand → Instr}
    (hf : ∀ {a b c a' b' c'}, f a b c = f a' b' c' → a = a' ∧ b = b' ∧ c = c') :
    decodeF3 f (a.word :: b.word :: c.word :: rest) = .ok (f a b c, rest) ↔ [a, b, c].all Operand.canonical = true := by
  have hinj : ∀ a' b' c', f a' b' c' = f a b c ↔ a' = a ∧ b' = b ∧ c' = c :=
    fun _ _ _ => ⟨hf, fun ⟨ha, hb, hc⟩ => ha ▸ hb ▸ hc ▸ rfl⟩
  simp [hinj, Operand.resolve_word_iff]

/-- The encoding decodes to the instruction exactly when the operands stand for Words; the cases are grouped by format (R71). -/
theorem decode_encode_append_iff : decode (encode i ++ rest) = .ok (i, rest) ↔ i.encodable = true := by
  cases i with
  | halt | ret | noop => exact iff_of_true rfl rfl
  | push a | pop a | jmp a | call a | out a | inp a => exact decodeF1_word_iff (by simp)
  | set a b | jt a b | jf a b | not a b | rmem a b | wmem a b => exact decodeF2_words_iff (by simp)
  | eq a b c | gt a b c | add a b c | mult a b c | mod a b c | and a b c | or a b c =>
    exact decodeF3_words_iff (by simp)

/-- The Words that decode to an instruction are its encoding and no others. -/
theorem decode_eq_ok_iff : decode ws = .ok (i, rest) ↔ encode i ++ rest = ws ∧ i.encodable = true := by
  constructor
  · intro h
    have hws := encode_append_of_decode h
    exact ⟨hws, decode_encode_append_iff.mp (hws ▸ h)⟩
  · rintro ⟨rfl, he⟩
    exact decode_encode_append_iff.mpr he

/-- Settles O5: the operand Words of an encodable instruction resolve to its operands. -/
theorem decodeOfEncodeIsTheInstruction : Obligations.DecodeOfEncodeIsTheInstruction :=
  fun _ _ he => decode_encode_append_iff.mpr he

/-- Settles O6: the decoder read backwards, and what a Word resolves to is canonical. -/
theorem encodeOfDecodeIsTheWords : Obligations.EncodeOfDecodeIsTheWords :=
  fun _ _ _ h => decode_eq_ok_iff.mp h

/-- Settles O1: each list of Words is the encoding of its instruction. -/
theorem specEncodingExamplesDecode : Obligations.SpecEncodingExamplesDecode :=
  ⟨decodeOfEncodeIsTheInstruction (.add (.reg 1) (.reg 2) (.lit 4)) [] rfl,
    decodeOfEncodeIsTheInstruction (.out (.lit 65)) [] rfl,
    decodeOfEncodeIsTheInstruction .halt [] rfl,
    decodeOfEncodeIsTheInstruction (.jt (.reg 0) (.lit 3)) [] rfl,
    decodeOfEncodeIsTheInstruction (.wmem (.lit 100) (.reg 7)) [] rfl⟩

/-! ## The resolver -/

/-- The register index of a register reference `w` is `w - 32768` (R77). -/
theorem Operand.word_reg_sub {w : Word} (h1 : 32768 ≤ w.toNat) (h2 : w.toNat - 32768 < 8) :
    (Operand.reg ⟨w.toNat - 32768, h2⟩).word = w := by
  apply BitVec.eq_of_toNat_eq
  simp [Operand.word]
  omega

/-- Settles O2: the three ranges of R76, the middle one by the register's own Word. -/
theorem resolverClassifiesEveryWord : Obligations.ResolverClassifiesEveryWord := by
  refine ⟨fun _ h => Operand.resolve_lit h, fun w h1 h2 => ?_, fun _ h => Operand.resolve_bad h, fun _ _ => rfl,
    fun _ _ => rfl⟩
  rw [← Operand.resolve_reg, Operand.word_reg_sub h1]

/-! ## The opcode Word -/

/-- Settles O3: no case of the decoder but its last is for an opcode of 22 or more. -/
theorem undefinedOpcodesAreRejected : Obligations.UndefinedOpcodesAreRejected := by
  intro op rest h
  obtain ⟨k, hk⟩ : ∃ k, op.toNat = k + 22 := Nat.exists_eq_add_of_le' h
  simp only [decode, hk]

/-- `r` is what the decoder may answer for an opcode `op` of arity `n` with the Words `ws` after it: an instruction of `n` operands
and the other Words, or the number of the first missing one (R72). -/
def ReadsOperands (op : Word) (n : Nat) (ws : List Word) (r : Except DecodeError (Instr × List Word)) : Prop :=
  (n ≤ ws.length → ∃ i, r = .ok (i, ws.drop n) ∧ i.opcode = op ∧ i.arity = n) ∧
    (ws.length < n → r = .error (.truncated (1 + ws.length)))

theorem readsOperands_decodeF0 (ho : i.opcode.toNat = op.toNat) (hn : i.arity = 0) :
    ReadsOperands op 0 ws (.ok (i, ws)) :=
  ⟨fun _ => ⟨i, rfl, BitVec.eq_of_toNat_eq ho, hn⟩, fun h => absurd h (Nat.not_lt_zero _)⟩

theorem readsOperands_decodeF1 {f : Operand → Instr} (ho : ∀ a, (f a).opcode.toNat = op.toNat)
    (hn : ∀ a, (f a).arity = 1) : ReadsOperands op 1 ws (decodeF1 f ws) := by
  refine ⟨fun _ => ?_, Rules.decodeF1_truncated⟩
  match ws with
  | _ :: _ => exact ⟨_, rfl, BitVec.eq_of_toNat_eq (ho _), hn _⟩

theorem readsOperands_decodeF2 {f : Operand → Operand → Instr} (ho : ∀ a b, (f a b).opcode.toNat = op.toNat)
    (hn : ∀ a b, (f a b).arity = 2) : ReadsOperands op 2 ws (decodeF2 f ws) := by
  refine ⟨fun _ => ?_, Rules.decodeF2_truncated⟩
  match ws with
  | _ :: _ :: _ => exact ⟨_, rfl, BitVec.eq_of_toNat_eq (ho _ _), hn _ _⟩

/-- Format F3 without one of its operand Words. -/
theorem Rules.decodeF3_truncated {f : Operand → Operand → Operand → Instr} (h : ws.length < 3) :
    decodeF3 f ws = .error (.truncated (1 + ws.length)) := by
  match ws with
  | [] | [_] | [_, _] => rfl

theorem readsOperands_decodeF3 {f : Operand → Operand → Operand → Instr}
    (ho : ∀ a b c, (f a b c).opcode.toNat = op.toNat) (hn : ∀ a b c, (f a b c).arity = 3) :
    ReadsOperands op 3 ws (decodeF3 f ws) := by
  refine ⟨fun _ => ?_, Rules.decodeF3_truncated⟩
  match ws with
  | _ :: _ :: _ :: _ => exact ⟨_, rfl, BitVec.eq_of_toNat_eq (ho _ _ _), hn _ _ _⟩

/-- Settles O4: the opcodes 0 to 21 grouped by format, F0 to F3, and those past the table; the arity table agrees with each format. -/
theorem opcodeAloneFixesTheLength : Obligations.OpcodeAloneFixesTheLength := by
  intro op n h ws
  change ReadsOperands op n ws (decode (op :: ws))
  simp only [decode]
  match hop : op.toNat, h with
  | 0, rfl | 18, rfl | 21, rfl => exact readsOperands_decodeF0 hop.symm rfl
  | 2, rfl | 3, rfl | 6, rfl | 17, rfl | 19, rfl | 20, rfl =>
    exact readsOperands_decodeF1 (fun _ => hop.symm) (fun _ => rfl)
  | 1, rfl | 7, rfl | 8, rfl | 14, rfl | 15, rfl | 16, rfl =>
    exact readsOperands_decodeF2 (fun _ _ => hop.symm) (fun _ _ => rfl)
  | 4, rfl | 5, rfl | 9, rfl | 10, rfl | 11, rfl | 12, rfl | 13, rfl =>
    exact readsOperands_decodeF3 (fun _ _ _ => hop.symm) (fun _ _ _ => rfl)
  | _ + 22, h => cases h

/-- The longest instruction has four Words (R71). -/
theorem Instr.arity_le_three (i : Instr) : i.arity ≤ 3 := by
  cases i <;> simp [Instr.arity, Instr.operands]

end Sys2Proof

namespace Sys2Proof.Machine

/-- Settles O7: the fetch is the decoder on the Words at `pc`. -/
theorem stepRunsTheDecodedInstruction : Obligations.StepRunsTheDecodedInstruction :=
  fun _ _ _ hr hd => step_of_fetch hr (fetchInstr_of_decode hd)

/-- The fetch reads all the Words of an instruction that stands inside memory (40_execution_engine.md R102). -/
theorem encode_prefix_fetchWords {m : Memory} {p : Word} {i : Instr} (hin : p.toNat + 1 + i.arity ≤ 32768)
    (hw : ∀ k, k ≤ i.arity → (encode i)[k]? = some (m.readWord (p.toNat + k))) : encode i <+: fetchWords m p := by
  have harity := i.arity_le_three
  rw [List.prefix_iff_getElem?]
  intro k hk
  have hle : k ≤ i.arity := by rw [length_encode] at hk; omega
  have hread : k < 4 ∧ p.toNat + k < Config.memWords := by simp; omega
  rw [getElem?_fetchWords, if_pos hread, ← hw k hle, List.getElem?_eq_getElem hk]

/-- Settles O8: the Words at `pc` begin with the instruction's encoding, so they decode to it. -/
theorem stepRunsTheInstructionAtPc : Obligations.StepRunsTheInstructionAtPc := by
  intro s i hr he hin hw
  obtain ⟨rest, hfetch⟩ := encode_prefix_fetchWords hin hw
  exact stepRunsTheDecodedInstruction s i rest hr (decode_eq_ok_iff.mpr ⟨hfetch, he⟩)

end Sys2Proof.Machine
end

section
/-! SUPPORT. The execution engine: every instruction and every step of a running machine answers a next state; the faults of the
fetch and of the operand checks; the ways a run ends; the interface transactions (40_execution_engine.md R100 to R110). -/

namespace Sys2Proof.Machine

open State

variable {i : Instr} {s t : State}

/-! ## Every instruction answers a next state -/

/-- The outcome is a next state: neither the stop of an ended run nor a refusal. -/
def Outcome.IsNext (o : Outcome) : Prop := ∃ t, o = .next t

theorem isNext_source {o : Operand} {k : Word → Outcome} (hk : ∀ v, Outcome.IsNext (k v)) :
    Outcome.IsNext (s.source o k) := by
  rcases source_cases (o := o) (k := k) rfl with ⟨v, -, h⟩ | ⟨-, h⟩
  · exact h ▸ hk v
  · exact ⟨_, h⟩

theorem isNext_target {o : Operand} {k : RegIdx → Outcome} (hk : ∀ r, Outcome.IsNext (k r)) :
    Outcome.IsNext (s.target o k) := by
  rcases target_cases (o := o) (k := k) rfl with ⟨r, -, h⟩ | ⟨-, h⟩
  · exact h ▸ hk r
  · exact ⟨_, h⟩

theorem isNext_dataAddress {a : Word} {k : Nat → Outcome} (hk : ∀ n, Outcome.IsNext (k n)) :
    Outcome.IsNext (s.dataAddress a k) := by
  rcases dataAddress_cases (a := a) (k := k) rfl with ⟨-, h⟩ | ⟨-, h⟩
  · exact h ▸ hk _
  · exact ⟨_, h⟩

theorem isNext_pushing {v : Word} {k : State → Outcome} (hk : ∀ u, Outcome.IsNext (k u)) :
    Outcome.IsNext (s.pushing v k) := by
  rcases pushing_cases (v := v) (k := k) rfl with ⟨-, h⟩ | ⟨-, h⟩
  · exact h ▸ hk _
  · exact ⟨_, h⟩

/-- Settles O9: each operation of a meaning goes on or raises its fault, and each meaning ends in a next state. -/
theorem everyInstructionAnswersANextState : Obligations.EveryInstructionAnswersANextState := by
  intro i s
  change Outcome.IsNext (exec i s)
  cases i with
  | halt | noop => exact ⟨_, rfl⟩
  | set | not => exact isNext_target fun _ => isNext_source fun _ => ⟨_, rfl⟩
  | eq | gt | add | mult | and | or =>
    exact isNext_target fun _ => isNext_source fun _ => isNext_source fun _ => ⟨_, rfl⟩
  | mod =>
    refine isNext_target fun _ => isNext_source fun _ => isNext_source fun _ => ?_
    split <;> exact ⟨_, rfl⟩
  | rmem => exact isNext_target fun _ => isNext_source fun _ => isNext_dataAddress fun _ => ⟨_, rfl⟩
  | wmem => exact isNext_source fun _ => isNext_source fun _ => isNext_dataAddress fun _ => ⟨_, rfl⟩
  | jmp | out => exact isNext_source fun _ => ⟨_, rfl⟩
  | jt | jf => exact isNext_source fun _ => isNext_source fun _ => ⟨_, rfl⟩
  | push | call => exact isNext_source fun _ => isNext_pushing fun _ => ⟨_, rfl⟩
  | ret =>
    simp only [exec, execRet]
    split <;> exact ⟨_, rfl⟩
  | pop | inp =>
    refine isNext_target fun _ => ?_
    split <;> exact ⟨_, rfl⟩

/-- Settles O10: a running machine runs the fetched instruction, which answers a next state, or raises the fetch's fault. -/
theorem engineStepsExactlyWhileRunning : Obligations.EngineStepsExactlyWhileRunning := by
  refine fun s => ⟨fun ⟨_, h⟩ => (step_cases h).1, fun hr => ?_⟩
  cases hf : fetchInstr s.mem s.pc with
  | ok i =>
    obtain ⟨t, ht⟩ := everyInstructionAnswersANextState i s
    exact ⟨s.traced i t, by rw [step_of_fetch hr hf, ht, traced_next]⟩
  | error e => exact ⟨_, step_of_fetch_fault hr hf⟩

/-! ## Fetch faults -/

/-- The step of a running machine whose Words at `pc` do not decode (R101, R102). -/
theorem step_of_decode_error {e : DecodeError} (hr : s.run = .running) (hd : decode (fetchWords s.mem s.pc) = .error e) :
    step s = .next (s.raiseFault (fetchFault s.pc e).1 (fetchFault s.pc e).2) :=
  step_of_fetch_fault hr (fetchInstr_of_error hd)

/-- Settles O11: outside memory Word 0 is missing; inside, the opcode Word is rejected before any operand Word is looked at. -/
theorem opcodeFetchFaults : Obligations.OpcodeFetchFaults := by
  refine fun s hr => ⟨fun hout => ?_, fun hin hop => ?_⟩
  · have hd : decode (fetchWords s.mem s.pc) = .error (.truncated 0) := by rw [fetchWords_outside hout]; rfl
    have h := step_of_decode_error hr hd
    rwa [fetchFault, BitVec.add_zero] at h
  · have hd : decode (fetchWords s.mem s.pc) = .error (.unknownOpcode (s.mem.readWord s.pc.toNat)) := by
      rw [fetchWords_inside hin]; exact undefinedOpcodesAreRejected _ _ hop
    exact step_of_decode_error hr hd

/-- No opcode has more than three operands (30_encoding.md R71, R74). -/
theorem arity_le_three_of_arities {op n : Nat} (h : Rules.arities[op]? = some n) : n ≤ 3 :=
  (by decide : ∀ n ∈ Rules.arities, n ≤ 3) n (List.mem_of_getElem? h)

/-- Settles O12: the least operand address outside memory is 32768, and the Word there is the first the decoder misses. -/
theorem operandFetchFaults : Obligations.OperandFetchFaults := by
  intro s n k hr hin hn hk hkn hout hleast
  have haddr : s.pc.toNat + k = 32768 := by
    rcases Nat.lt_or_ge 1 k with h | h
    · have := hleast (k - 1) (by omega) (by omega); omega
    · omega
  rw [haddr]
  exact Rules.faultsPastMemoryEnd_of_truncated (arity_le_three_of_arities hn)
    (fun ws => (opcodeAloneFixesTheLength _ n hn ws).2) s hr hin rfl (by omega)

/-! ## The operand checks -/

/-- The outcome is InvalidRegister with the first operand of the list that is illegal in its role, if there is one (R103). -/
def ReportsFirstIllegal (s : State) (ops : List (Role × Operand)) (r : Outcome) : Prop :=
  ∀ o, firstIllegal ops = some o → r = .next (s.raiseFault .invalidRegister o.word)

theorem reportsFirstIllegal_nil (r : Outcome) : ReportsFirstIllegal s [] r := fun _ h => nomatch h

theorem reportsFirstIllegal_source {a : Operand} {ops : List (Role × Operand)} {k : Word → Outcome}
    (hk : ∀ v, ReportsFirstIllegal s ops (k v)) : ReportsFirstIllegal s ((.read, a) :: ops) (s.source a k) := by
  intro o h
  rcases source_cases (o := a) (k := k) rfl with ⟨v, hv, hkv⟩ | ⟨hl, hr⟩
  · have hl : a.legalIn .read = true := by rw [← value?_isSome (s := s), hv]; rfl
    rw [firstIllegal, if_pos hl] at h
    exact hkv ▸ hk v o h
  · rw [firstIllegal, hl] at h
    cases h; exact hr

theorem reportsFirstIllegal_target {a : Operand} {ops : List (Role × Operand)} {k : RegIdx → Outcome}
    (hk : ∀ r, ReportsFirstIllegal s ops (k r)) : ReportsFirstIllegal s ((.write, a) :: ops) (s.target a k) := by
  intro o h
  rcases target_cases (o := a) (k := k) rfl with ⟨r, rfl, hkr⟩ | ⟨hl, hr⟩
  · exact hkr ▸ hk r o h
  · rw [firstIllegal, hl] at h
    cases h; exact hr

/-- Every instruction checks its operands in argument order; the cases are grouped by the operands' roles (R79). -/
theorem exec_reportsFirstIllegal (i : Instr) (s : State) : ReportsFirstIllegal s i.operands (exec i s) := by
  cases i with
  | halt | ret | noop => exact reportsFirstIllegal_nil _
  | push | jmp | call | out => exact reportsFirstIllegal_source fun _ => reportsFirstIllegal_nil _
  | pop | inp => exact reportsFirstIllegal_target fun _ => reportsFirstIllegal_nil _
  | jt | jf | wmem =>
    exact reportsFirstIllegal_source fun _ => reportsFirstIllegal_source fun _ => reportsFirstIllegal_nil _
  | set | not | rmem =>
    exact reportsFirstIllegal_target fun _ => reportsFirstIllegal_source fun _ => reportsFirstIllegal_nil _
  | eq | gt | add | mult | mod | and | or =>
    exact reportsFirstIllegal_target fun _ => reportsFirstIllegal_source fun _ => reportsFirstIllegal_source fun _ =>
      reportsFirstIllegal_nil _

/-- The first illegal operand of a list stands after legal ones. -/
theorem firstIllegal_append_cons {before after : List (Role × Operand)} {r : Role} {o : Operand}
    (hb : ∀ p ∈ before, p.2.legalIn p.1 = true) (ho : o.legalIn r = false) :
    firstIllegal (before ++ (r, o) :: after) = some o := by
  induction before with
  | nil => simp [firstIllegal, ho]
  | cons p ps ih =>
    obtain ⟨hp, hps⟩ := List.forall_mem_cons.mp hb
    rw [List.cons_append, firstIllegal, if_pos hp, ih hps]

/-- Settles O13: `exec` reports the first illegal operand, which is the one after the legal ones. -/
theorem firstIllegalOperandIsReported : Obligations.FirstIllegalOperandIsReported :=
  fun s i _ _ _ o hops hb ho => exec_reportsFirstIllegal i s o (hops ▸ firstIllegal_append_cons hb ho)

/-- Settles O14: an effect keeps the run unfaulted, and legal operands leave of `OwnFault` the instructions' own checks. -/
theorem legalOperandsLeaveOneOwnCheck : Obligations.LegalOperandsLeaveOneOwnCheck := by
  intro s t i hlegal hr h ht
  rcases exec_ends h with he | ⟨reason, raw, hown, rfl⟩
  · exact absurd ht (he.run_ne_faulted hr)
  · rw [raiseFault_fault]
    cases hown with
    | operand _ _ p hp hl => rw [hlegal p hp] at hl; cases hl
    | divide _ a b c => exact .inl ⟨rfl, a, b, c, rfl⟩
    | load _ a b => exact .inr (.inl ⟨rfl, a, b, .inl rfl⟩)
    | store _ a b => exact .inr (.inl ⟨rfl, a, b, .inr rfl⟩)
    | push _ a => exact .inr (.inr ⟨rfl, a, .inl rfl⟩)
    | call _ a => exact .inr (.inr ⟨rfl, a, .inr rfl⟩)

/-! ## The end of a run and the interfaces -/

/-- The run state after an effect: as before, or ended by HALT, RET on an empty stack, or IN at end of input (R110). -/
theorem Effect.run_cases (h : Effect i s t) :
    t.run = s.run ∨
    (t.run = .halted ∧ (i = .halt ∨ i = .ret ∧ s.stack = [])) ∨
    (t.run = .inputEnded ∧ ∃ r rest, i = .inp (.reg r) ∧ s.input = .eof :: rest) := by
  cases h with
  | halt => exact .inr (.inl ⟨rfl, .inl rfl⟩)
  | retHalt _ hs => exact .inr (.inl ⟨rfl, .inr ⟨rfl, hs⟩⟩)
  | inEof _ r rest hi => exact .inr (.inr ⟨rfl, r, rest, rfl, hi⟩)
  | _ => exact .inl rfl

/-- Settles O16: an effect ends the run in one of its three ways, and every fault has a reason. -/
theorem runEndsInExactlyTheseWays : Obligations.RunEndsInExactlyTheseWays := by
  intro s t h hend
  obtain ⟨hr, ⟨i, u, hf, hu, rfl⟩ | ⟨reason, raw, hf, rfl⟩⟩ := step_cases h
  · rw [traced_run] at hend ⊢
    rw [traced_fault, hf]
    rcases exec_ends hu with he | ⟨reason, raw, hown, rfl⟩
    · rcases he.run_cases with hrun | ⟨hrun, hi⟩ | ⟨hrun, r, rest, hi, hin⟩
      · exact absurd (hrun.trans hr) hend
      · exact .inl ⟨hrun, hi.imp (congrArg _) (And.imp_left (congrArg _))⟩
      · exact .inr (.inr ⟨hrun, r, rest, congrArg _ hi, hin⟩)
    · exact .inr (.inl ⟨rfl, hown.reason_ne_none⟩)
  · exact .inr (.inl ⟨rfl, fetchInstr_error_ne_none hf⟩)

/-- The emitted Words after an effect: as before, or with the value OUT emits (10_state.md R39; 48_io.md R200). -/
theorem Effect.output_cases (h : Effect i s t) :
    t.output = s.output ∨ ∃ a v, i = .out a ∧ s.value? a = some v ∧ t.output = s.output ++ [v] := by
  cases h with
  | out _ a v hv => exact .inr ⟨a, v, rfl, hv, rfl⟩
  | _ => exact .inl rfl

/-- The answers after an effect: as before, or with the next one consumed by IN (48_io.md R201, R202). -/
theorem Effect.input_cases (h : Effect i s t) :
    t.input = s.input ∧ t.consumed = s.consumed ∨
    ∃ r ans, i = .inp (.reg r) ∧ s.input = ans :: t.input ∧ t.consumed = s.consumed ++ [ans] := by
  cases h with
  | inChar _ r c _ hi => exact .inr ⟨r, .char c, rfl, hi, rfl⟩
  | inEof _ r _ hi => exact .inr ⟨r, .eof, rfl, hi, rfl⟩
  | _ => exact .inl ⟨rfl, rfl⟩

/-- Settles O21: a fault leaves both interfaces, an effect uses one of them at most, by OUT or by IN. -/
theorem onlyInAndOutUseTheInterfaces : Obligations.OnlyInAndOutUseTheInterfaces := by
  intro s t h
  obtain ⟨-, ⟨i, u, hf, hu, rfl⟩ | ⟨reason, raw, -, rfl⟩⟩ := step_cases h
  · rw [traced_output, traced_input, traced_consumed, hf]
    rcases exec_ends hu with he | ⟨reason, raw, -, rfl⟩
    · exact ⟨he.output_cases.imp_right fun ⟨a, v, hi, hrest⟩ => ⟨a, v, congrArg _ hi, hrest⟩,
        he.input_cases.imp_right fun ⟨r, ans, hi, hrest⟩ => ⟨r, ans, congrArg _ hi, hrest⟩⟩
    · exact ⟨.inl rfl, .inl ⟨rfl, rfl⟩⟩
  · exact ⟨.inl rfl, .inl ⟨rfl, rfl⟩⟩

end Sys2Proof.Machine
end

section
/-! SUPPORT. HALT and NOOP: format F0 and the sequential commit of one Word (30_encoding.md R71; 40_execution_engine.md R105, R106;
41_halt_noop.md R120, R121). -/

namespace Sys2Proof.Machine

variable (s : State)

/-- The commit of an instruction without operands moves `pc` by one Word and leaves every other field (R105, R106). -/
theorem State.advance_zero : s.advance 0 = { s with pc := s.pc + 1 } := rfl

/-- HALT commits like an instruction that goes on, after it set the run state (R120). -/
theorem exec_halt : exec .halt s = .next (s.halt.advance 0) := rfl

/-- NOOP is the commit alone (R121). -/
theorem exec_noop : exec .noop s = .next (s.advance 0) := rfl

end Sys2Proof.Machine

namespace Sys2Proof.Rules

open Sys2Proof Sys2Proof.Machine

variable {op : Word} {i : Instr}

/-- An instruction whose encoding is the one Word `op` has format F0. -/
theorem formatF0_of_encode (he : encode i = [op]) (hc : i.encodable = true) : FormatF0 op i :=
  fun _ => decode_eq_ok_iff.mpr ⟨congrArg (· ++ _) he, hc⟩

/-- Settles O35: the format is F0; the commit follows the change of the run state, which leaves `pc`. -/
theorem haltEndsTheRun : Obligations.HaltEndsTheRun := by
  refine ⟨formatF0_of_encode rfl rfl, fun s => ?_⟩
  rw [exec_halt, State.advance_zero]
  rfl

/-- Settles O36: the format is F0, and the commit is all that NOOP does. -/
theorem noopAdvances : Obligations.NoopAdvances := by
  refine ⟨formatF0_of_encode rfl rfl, fun s => ?_⟩
  rw [exec_noop, State.advance_zero]

end Sys2Proof.Rules
end

section
/-! SUPPORT. SET, PUSH and POP: the formats F1 and F2 read off an instruction's operands, the room of the stack, and the state
each meaning commits (30_encoding.md R71, R79; 40_execution_engine.md R103, R105, R106; 42_move_stack.md R130 to R134). -/

namespace Sys2Proof.Machine

open State Rules

variable {s : State} {a b : Operand} {i : RegIdx} {v : Word} {rest : List Word} {k : State → Outcome}

/-! ## The stack's room (10_state.md R32) -/

theorem State.stackFull_of_hasRoom (h : HasRoom s) : s.stackFull = false :=
  Bool.eq_false_iff.mpr fun hf =>
    have ⟨n, hn, hle⟩ := stackFull_iff.mp hf
    absurd (h n hn) (Nat.not_lt.mpr hle)

theorem State.stackFull_of_capacity_eq (h : s.stackCapacity = some s.stack.length) : s.stackFull = true :=
  stackFull_iff.mpr ⟨_, h, le_rfl⟩

theorem State.pushing_of_not_full (h : s.stackFull = false) : s.pushing v k = k (s.push v) := by
  rw [pushing, h]; rfl

theorem State.pushing_of_full (h : s.stackFull = true) : s.pushing v k = .next (s.raiseFault .stackOverflow v) :=
  if_pos h

/-! ## The meanings with a legal operand -/

/-- SET commits the value of its second operand to the register (R131). -/
theorem exec_set (hb : s.value? b = some v) :
    exec (.set (.reg i) b) s = .next { s with regs := s.regs.set i.val v i.isLt, pc := s.pc + 3 } :=
  source_some hb _

/-- PUSH with a readable operand is left with the check of the stack's room (R132). -/
theorem exec_push (ha : s.value? a = some v) : exec (.push a) s = s.pushing v fun t => .next (t.advance 1) :=
  source_some ha _

/-- PUSH with room commits the longer stack (R132). -/
theorem exec_push_of_hasRoom (ha : s.value? a = some v) (hr : HasRoom s) :
    exec (.push a) s = .next { s with stack := v :: s.stack, pc := s.pc + 2 } :=
  (exec_push ha).trans (pushing_of_not_full (stackFull_of_hasRoom hr))

/-- PUSH on a full stack reports the value it could not push (R132). -/
theorem exec_push_of_full (ha : s.value? a = some v) (hf : s.stackFull = true) :
    exec (.push a) s = .next (s.raiseFault .stackOverflow v) :=
  (exec_push ha).trans (pushing_of_full hf)

/-- POP takes the top entry of a stack that has one (R133). -/
theorem exec_pop_cons (h : s.stack = v :: rest) :
    exec (.pop (.reg i)) s = .next { s with regs := s.regs.set i.val v i.isLt, stack := rest, pc := s.pc + 2 } := by
  have hp : s.pop? = some (v, { s with stack := rest }) := by rw [pop?, h]
  simp only [exec, execPop, target_reg, hp]
  rfl

/-- POP on an empty stack writes the sentinel (R134). -/
theorem exec_pop_nil (h : s.stack = []) :
    exec (.pop (.reg i)) s = .next { s with regs := s.regs.set i.val 65535 i.isLt, pc := s.pc + 2 } := by
  have hp : s.pop? = none := by rw [pop?, h]
  simp only [exec, execPop, target_reg, hp]
  rfl

/-- Settles O31: the entry PUSH left on top is the one POP takes, and two commits of two Words move `pc` by four. -/
theorem pushThenPopGivesTheValueBack : Obligations.PushThenPopGivesTheValueBack := by
  intro s t a v i ha hr ht
  obtain rfl : { s with stack := v :: s.stack, pc := s.pc + 2 } = t := by
    simpa [exec_push_of_hasRoom ha hr] using ht
  have hpc : s.pc + 2 + 2 = s.pc + 4 := BitVec.add_assoc s.pc 2 2
  rw [exec_pop_cons rfl, hpc]

end Sys2Proof.Machine

namespace Sys2Proof.Rules

open Sys2Proof Sys2Proof.Machine

variable {op : Word} {ra : Role}

/-! ## Formats from the operands' roles (30_encoding.md R79) -/

/-- An instruction with one operand has format F1: `exec` reports that operand when it is illegal (R103). -/
theorem formatF1_of_operands {f : Operand → Instr} (hd : ∀ ws, decode (op :: ws) = decodeF1 f ws)
    (ho : ∀ a, (f a).operands = [(ra, a)]) : FormatF1 op ra f :=
  formatF1_of hd fun s a hl =>
    firstIllegalOperandIsReported s (f a) [] [] ra a (ho a) (List.forall_mem_nil _) hl

/-- An instruction with two operands, the second one read, has format F2: `exec` reports the first illegal one (R103). -/
theorem formatF2_of_operands {f : Operand → Operand → Instr} (hd : ∀ ws, decode (op :: ws) = decodeF2 f ws)
    (ho : ∀ a b, (f a b).operands = [(ra, a), (.read, b)]) : FormatF2 op ra f :=
  formatF2_of hd
    (fun s a b hl => firstIllegalOperandIsReported s (f a b) [] [(.read, b)] ra a (ho a b) (List.forall_mem_nil _) hl)
    fun s a b hla hlb =>
      firstIllegalOperandIsReported s (f a b) [(ra, a)] [] .read b (ho a b) (List.forall_mem_singleton.mpr hla) hlb

/-- Settles O37: the format is F2 with a write target, and SET commits the value it read. -/
theorem setCopiesTheValue : Obligations.SetCopiesTheValue :=
  ⟨formatF2_of_operands (fun _ => rfl) fun _ _ => rfl, fun _ _ _ _ => exec_set⟩

/-- Settles O38: the format is F1 with a read operand; room and a reached capacity are the two ends of the check. -/
theorem pushPutsTheValueOnTop : Obligations.PushPutsTheValueOnTop :=
  ⟨formatF1_of_operands (fun _ => rfl) fun _ => rfl,
    fun _ _ _ ha => ⟨exec_push_of_hasRoom ha, fun hc => exec_push_of_full ha (State.stackFull_of_capacity_eq hc)⟩⟩

/-- Settles O39: the format is F1 with a write target; the stack has a top entry or is empty. -/
theorem popTakesTheTopOrTheSentinel : Obligations.PopTakesTheTopOrTheSentinel :=
  ⟨formatF1_of_operands (fun _ => rfl) fun _ => rfl, fun _ _ => ⟨fun _ _ => exec_pop_cons, exec_pop_nil⟩⟩

end Sys2Proof.Rules
end

section
/-! SUPPORT. EQ and GT: the format F3 read off an instruction's operands, the plain result of two read operands, and the Word a
comparison writes (30_encoding.md R71, R79; 10_state.md R31; 40_execution_engine.md R103 to R106; 43_compare.md R140, R141). -/

namespace Sys2Proof.Machine

open State

variable {s : State} {b c : Operand} {i : RegIdx} {vb vc : Word}

/-- A plain result of two legal read operands: the value goes to the register, and four Words are committed (R104 to R106). -/
theorem State.result3_of_values {g : Word → Word → Word} (hb : s.value? b = some vb) (hc : s.value? c = some vc) :
    (s.target (.reg i) fun i => s.source b fun vb => s.source c fun vc => s.writeBack 3 i (g vb vc)) =
      .next { s with regs := s.regs.set i.val (g vb vc) i.isLt, pc := s.pc + 4 } :=
  (source_some hb _).trans (source_some hc _)

/-! ## The Word of a comparison (R140, R141) -/

theorem truthWord_decide (p : Prop) [Decidable p] : truthWord (decide p) = if p then 1 else 0 := by
  by_cases h : p <;> simp [truthWord, h]

theorem truthWord_eq (vb vc : Word) : truthWord (Alu.eq vb vc) = if vb.toNat = vc.toNat then 1 else 0 := by
  have heq : Alu.eq vb vc = decide (vb.toNat = vc.toNat) := decide_eq_decide.mpr BitVec.toNat_inj.symm
  rw [heq, truthWord_decide]

theorem truthWord_gt (vb vc : Word) : truthWord (Alu.gt vb vc) = if vb.toNat > vc.toNat then 1 else 0 :=
  truthWord_decide _

/-- EQ commits the Word of its comparison to the register (R140). -/
theorem exec_eq (hb : s.value? b = some vb) (hc : s.value? c = some vc) :
    exec (.eq (.reg i) b c) s =
      .next { s with regs := s.regs.set i.val (if vb.toNat = vc.toNat then 1 else 0) i.isLt, pc := s.pc + 4 } :=
  truthWord_eq vb vc ▸ result3_of_values hb hc

/-- GT commits the Word of its comparison to the register (R141). -/
theorem exec_gt (hb : s.value? b = some vb) (hc : s.value? c = some vc) :
    exec (.gt (.reg i) b c) s =
      .next { s with regs := s.regs.set i.val (if vb.toNat > vc.toNat then 1 else 0) i.isLt, pc := s.pc + 4 } :=
  truthWord_gt vb vc ▸ result3_of_values hb hc

end Sys2Proof.Machine

namespace Sys2Proof.Rules

open Sys2Proof Sys2Proof.Machine

variable {op : Word}

/-- An instruction with a write target and two read operands has format F3: `exec` reports the first illegal one (R103). -/
theorem formatF3_of_operands {f : Operand → Operand → Operand → Instr} (hd : ∀ ws, decode (op :: ws) = decodeF3 f ws)
    (ho : ∀ a b c, (f a b c).operands = [(.write, a), (.read, b), (.read, c)]) : FormatF3 op f := by
  have hx := fun s a b c => firstIllegalOperandIsReported s (f a b c)
  refine ⟨fun a b c rest => hd (a :: b :: c :: rest), fun s a b c => ⟨fun hla => ?_, fun hla hlb => ?_, fun hla hlb hlc => ?_⟩,
    faultsPastMemoryEnd_of_truncated (by decide) fun ws h => (hd ws).trans (decodeF3_truncated h)⟩
  · exact hx s a b c [] [(.read, b), (.read, c)] .write a (ho a b c) (List.forall_mem_nil _) hla
  · exact hx s a b c [(.write, a)] [(.read, c)] .read b (ho a b c) (List.forall_mem_singleton.mpr hla) hlb
  · exact hx s a b c [(.write, a), (.read, b)] [] .read c (ho a b c)
      (List.forall_mem_cons.mpr ⟨hla, List.forall_mem_singleton.mpr hlb⟩) hlc

/-- Settles O40: the format is F3, and the Words are equal exactly when their values are. -/
theorem eqWritesTheComparison : Obligations.EqWritesTheComparison :=
  ⟨formatF3_of_operands (fun _ => rfl) fun _ _ _ => rfl, fun _ _ _ _ _ _ => exec_eq⟩

/-- Settles O41: the format is F3, and the comparison is that of the unsigned values. -/
theorem gtWritesTheComparison : Obligations.GtWritesTheComparison :=
  ⟨formatF3_of_operands (fun _ => rfl) fun _ _ _ => rfl, fun _ _ _ _ _ _ => exec_gt⟩

end Sys2Proof.Rules
end

section
/-! SUPPORT. JMP, JT and JF: the target of a conditional jump, the state each meaning commits, and the fetch after a jump out of
memory (30_encoding.md R71, R79; 40_execution_engine.md R101, R105, R106; 44_branch.md R150 to R153). -/

namespace Sys2Proof.Machine

open State Rules

variable {s : State} {a b : Operand} {v va vb : Word}

theorem nonZero_iff : nonZero v = true ↔ v.toNat ≠ 0 :=
  bne_iff_ne.trans (BitVec.toNat_ne_iff_ne (y := 0)).symm

/-! ## The meanings with legal operands -/

/-- JMP commits the value of its operand as the new `pc` (R150). -/
theorem exec_jmp (ha : s.value? a = some v) : exec (.jmp a) s = .next (s.setPc v) := source_some ha _

/-- JT jumps when the first value is not zero and goes on with the next instruction otherwise (R151). -/
theorem exec_jt (ha : s.value? a = some va) (hb : s.value? b = some vb) :
    exec (.jt a b) s = .next (s.setPc (if va.toNat ≠ 0 then vb else s.pc + 3)) := by
  have hx : exec (.jt a b) s = .next (if nonZero va then s.setPc vb else s.setPc (s.pc + 3)) :=
    (source_some ha _).trans (source_some hb _)
  simp only [hx, nonZero_iff, apply_ite s.setPc]

/-- JF goes on with the next instruction when the first value is not zero and jumps otherwise (R152). -/
theorem exec_jf (ha : s.value? a = some va) (hb : s.value? b = some vb) :
    exec (.jf a b) s = .next (s.setPc (if va.toNat = 0 then vb else s.pc + 3)) := by
  have hx : exec (.jf a b) s = .next (if nonZero va then s.setPc (s.pc + 3) else s.setPc vb) :=
    (source_some ha _).trans (source_some hb _)
  simp only [hx, nonZero_iff, ite_not, apply_ite s.setPc]

/-! ## The fetch after a jump (R150, R153) -/

/-- A running machine whose `pc` was set to a Word outside memory faults at the next fetch, with the target as raw Word and
fault address. -/
theorem step_setPc_outside (hr : s.run = .running) (hv : 32768 ≤ v.toNat) :
    step (s.setPc v) = .next ((s.setPc v).raiseFault .fetchOutOfRange v) :=
  (opcodeFetchFaults (s.setPc v) hr).1 hv

end Sys2Proof.Machine

namespace Sys2Proof.Rules

open Sys2Proof Sys2Proof.Machine

/-- Settles O42: the format is F1 with a read operand; the target is committed unchecked, so the next fetch reports it. -/
theorem jmpSetsThePc : Obligations.JmpSetsThePc := by
  refine ⟨formatF1_of_operands (fun _ => rfl) fun _ => rfl, fun _ _ _ => exec_jmp, fun s t a v hr ha hv ht => ?_⟩
  obtain rfl : s.setPc v = t := by simpa [exec_jmp ha] using ht
  exact step_setPc_outside hr hv

/-- Settles O43: the format is F2 with two read operands, checked before the first value is tested. -/
theorem jtJumpsWhenNotZero : Obligations.JtJumpsWhenNotZero :=
  ⟨formatF2_of_operands (fun _ => rfl) fun _ _ => rfl, fun _ _ _ _ _ => exec_jt⟩

/-- Settles O44: the format is F2 with two read operands, and the test is that of JT with the two targets exchanged. -/
theorem jfJumpsWhenZero : Obligations.JfJumpsWhenZero :=
  ⟨formatF2_of_operands (fun _ => rfl) fun _ _ => rfl, fun _ _ _ _ _ => exec_jf⟩

end Sys2Proof.Rules
end

section
/-! SUPPORT. The ALU: the range of its results, and ADD, MULT, MOD, AND, OR and NOT with legal operands (30_encoding.md R71, R79;
40_execution_engine.md R103 to R106; 45_arith_logic.md R160 to R166). -/

namespace Sys2Proof.Machine

variable {s : State} {b c : Operand} {i : RegIdx} {v vb vc p : Word} {o : Outcome}

/-! ## The range of the results (R160) -/

/-- A value reduced by the modulus is in range (R161, R162). -/
theorem Alu.toNat_ofNat_mod_modulus_le (n : Nat) : (BitVec.ofNat 16 (n % Config.modulus)).toNat ≤ 32767 := by
  simp only [BitVec.toNat_ofNat, Config.modulus]
  omega

/-- A masked Word is in range: it is at most the mask (R164 to R166). -/
theorem Alu.toNat_and_valueMask_le (x : Word) : (x &&& Config.valueMask).toNat ≤ 32767 := by
  rw [BitVec.toNat_and]
  exact Nat.and_le_right

/-- A remainder is at most the dividend, so it is in range when the dividend is (R163). -/
theorem Alu.toNat_mod_le (b c : Word) : (Alu.mod b c).toNat ≤ b.toNat := by
  rw [Alu.mod, BitVec.toNat_ofNat]
  exact (Nat.mod_le _ _).trans (Nat.mod_le _ _)

/-- Where a mask is set, the exclusive or with it is the complement (the two forms of R166). -/
theorem Alu.xor_and_eq_not_and {w : Nat} (x m : BitVec w) : (x ^^^ m) &&& m = ~~~x &&& m := by
  ext k hk
  simp only [BitVec.getElem_and, BitVec.getElem_xor, BitVec.getElem_not]
  cases m[k] <;> simp

/-! ## The meanings with legal operands -/

/-- ADD commits the sum modulo 32768 (R161). -/
theorem exec_add (hb : s.value? b = some vb) (hc : s.value? c = some vc) :
    exec (.add (.reg i) b c) s = .next { s with regs := s.regs.set i.val (Alu.add vb vc) i.isLt, pc := s.pc + 4 } :=
  State.result3_of_values hb hc

/-- MULT commits the product modulo 32768 (R162). -/
theorem exec_mult (hb : s.value? b = some vb) (hc : s.value? c = some vc) :
    exec (.mult (.reg i) b c) s = .next { s with regs := s.regs.set i.val (Alu.mult vb vc) i.isLt, pc := s.pc + 4 } :=
  State.result3_of_values hb hc

/-- AND commits the masked conjunction (R164). -/
theorem exec_and (hb : s.value? b = some vb) (hc : s.value? c = some vc) :
    exec (.and (.reg i) b c) s = .next { s with regs := s.regs.set i.val (Alu.and vb vc) i.isLt, pc := s.pc + 4 } :=
  State.result3_of_values hb hc

/-- OR commits the masked disjunction (R165). -/
theorem exec_or (hb : s.value? b = some vb) (hc : s.value? c = some vc) :
    exec (.or (.reg i) b c) s = .next { s with regs := s.regs.set i.val (Alu.or vb vc) i.isLt, pc := s.pc + 4 } :=
  State.result3_of_values hb hc

/-- NOT commits the 15-bit complement; it is three Words long (R166). -/
theorem exec_not (hb : s.value? b = some vb) :
    exec (.not (.reg i) b) s = .next { s with regs := s.regs.set i.val (Alu.not vb) i.isLt, pc := s.pc + 3 } :=
  State.source_some hb _

/-- MOD with legal operands is left with the test of its divisor (R163). -/
theorem exec_mod (hb : s.value? b = some vb) (hc : s.value? c = some vc) :
    exec (.mod (.reg i) b c) s =
      if vc = 0 then .next (s.raiseFault .divideByZero c.word) else s.writeBack 3 i (Alu.mod vb vc) :=
  (State.source_some hb _).trans (State.source_some hc _)

/-- MOD by a divisor that is not zero commits the remainder (R163). -/
theorem exec_mod_of_ne_zero (hb : s.value? b = some vb) (hc : s.value? c = some vc) (h : vc ≠ 0) :
    exec (.mod (.reg i) b c) s = .next { s with regs := s.regs.set i.val (Alu.mod vb vc) i.isLt, pc := s.pc + 4 } :=
  (exec_mod hb hc).trans (if_neg h)

/-- MOD by zero reports the operand Word of its divisor (R163). -/
theorem exec_mod_of_eq_zero (hb : s.value? b = some vb) (hc : s.value? c = some vc) (h : vc = 0) :
    exec (.mod (.reg i) b c) s = .next (s.raiseFault .divideByZero c.word) :=
  (exec_mod hb hc).trans (if_pos h)

/-- An instruction that commits a value in range to a register leaves that register in range. -/
theorem exists_next_reg_le (h : o = .next { s with regs := s.regs.set i.val v i.isLt, pc := p }) (hv : v.toNat ≤ 32767) :
    ∃ t, o = .next t ∧ (t.reg i).toNat ≤ 32767 := by
  refine ⟨_, h, ?_⟩
  have hreg := State.reg_setReg_same s i v
  exact (congrArg BitVec.toNat hreg).trans_le hv

/-- Settles O33: ADD and MULT reduce, AND, OR and NOT mask, and a remainder is at most its dividend. -/
theorem aluResultsStayInRange : Obligations.AluResultsStayInRange := by
  intro s i b c vb vc hb hc
  refine ⟨?_, exists_next_reg_le (exec_not hb) (Alu.toNat_and_valueMask_le _), fun hvb _ hne => ?_⟩
  · simp only [List.forall_mem_cons]
    exact ⟨exists_next_reg_le (exec_add hb hc) (Alu.toNat_ofNat_mod_modulus_le _),
      exists_next_reg_le (exec_mult hb hc) (Alu.toNat_ofNat_mod_modulus_le _),
      exists_next_reg_le (exec_and hb hc) (Alu.toNat_and_valueMask_le _),
      exists_next_reg_le (exec_or hb hc) (Alu.toNat_and_valueMask_le _), List.forall_mem_nil _⟩
  · exact exists_next_reg_le (exec_mod_of_ne_zero hb hc hne) ((Alu.toNat_mod_le vb vc).trans hvb)

end Sys2Proof.Machine

namespace Sys2Proof.Rules

open Sys2Proof Sys2Proof.Machine

/-- Settles O45: the format is F3, and the result is the sum modulo 32768. -/
theorem addIsModulo32768 : Obligations.AddIsModulo32768 :=
  ⟨formatF3_of_operands (fun _ => rfl) fun _ _ _ => rfl, fun _ _ _ _ _ _ => exec_add⟩

/-- Settles O46: the format is F3, and the result is the product modulo 32768. -/
theorem multIsModulo32768 : Obligations.MultIsModulo32768 :=
  ⟨formatF3_of_operands (fun _ => rfl) fun _ _ _ => rfl, fun _ _ _ _ _ _ => exec_mult⟩

/-- Settles O47: the format is F3, and after the operand checks the divisor is zero or not. -/
theorem modIsTheRemainderOrFaults : Obligations.ModIsTheRemainderOrFaults :=
  ⟨formatF3_of_operands (fun _ => rfl) fun _ _ _ => rfl,
    fun _ _ _ _ _ _ hb hc => ⟨exec_mod_of_ne_zero hb hc, exec_mod_of_eq_zero hb hc⟩⟩

/-- Settles O48: the format is F3, and the conjunction is masked. -/
theorem andIsMasked : Obligations.AndIsMasked :=
  ⟨formatF3_of_operands (fun _ => rfl) fun _ _ _ => rfl, fun _ _ _ _ _ _ => exec_and⟩

/-- Settles O49: the format is F3, and the disjunction is masked. -/
theorem orIsMasked : Obligations.OrIsMasked :=
  ⟨formatF3_of_operands (fun _ => rfl) fun _ _ _ => rfl, fun _ _ _ _ _ _ => exec_or⟩

/-- Settles O50: the format is F2 with a write target, and both forms of the rule give the same Word. -/
theorem notIsTheFifteenBitComplement : Obligations.NotIsTheFifteenBitComplement :=
  ⟨formatF2_of_operands (fun _ => rfl) fun _ _ => rfl, fun _ _ _ vb hb => ⟨exec_not hb, Alu.xor_and_eq_not_and vb _⟩⟩

end Sys2Proof.Rules
end

section
/-! SUPPORT. RMEM: its format F2, the Word it reads and its own fault (20_memory.md R50; 30_encoding.md R71, R79;
40_execution_engine.md R103 to R106; 46_memory_access.md R180). -/

namespace Sys2Proof.Machine

open State

variable {s : State} {b : Operand} {i : RegIdx} {addr : Word}

/-- RMEM with legal operands is left with the check of its address (R180). -/
theorem exec_rmem (hb : s.value? b = some addr) :
    exec (.rmem (.reg i) b) s = s.dataAddress addr fun n => s.writeBack 2 i (s.mem.readWord n) :=
  source_some hb _

/-- RMEM from an address inside memory commits the whole Word that stands there (R180). -/
theorem exec_rmem_of_inside (hb : s.value? b = some addr) (h : addr.toNat < Config.memWords) :
    exec (.rmem (.reg i) b) s =
      .next { s with regs := s.regs.set i.val (s.mem.readWord addr.toNat) i.isLt, pc := s.pc + 3 } :=
  (exec_rmem hb).trans (dataAddress_inside h _)

/-- RMEM from an address outside memory reports the address (R180). -/
theorem exec_rmem_of_outside (hb : s.value? b = some addr) (h : Config.memWords ≤ addr.toNat) :
    exec (.rmem (.reg i) b) s = .next (s.raiseFault .dataOutOfRange addr) :=
  (exec_rmem hb).trans (dataAddress_outside h _)

end Sys2Proof.Machine

namespace Sys2Proof.Rules

open Sys2Proof Sys2Proof.Machine

/-- Settles O51: the format is F2 with a write target, and the address stands inside memory or not. -/
theorem rmemReadsTheWord : Obligations.RmemReadsTheWord :=
  ⟨formatF2_of_operands (fun _ => rfl) fun _ _ => rfl,
    fun _ _ _ _ hb => ⟨exec_rmem_of_inside hb, exec_rmem_of_outside hb⟩⟩

end Sys2Proof.Rules
end

section
/-! SUPPORT. CALL and RET: their formats, the state each meaning commits, the round trip of the two, and how `trace_depth` moves
(30_encoding.md R71, R79; 40_execution_engine.md R105, R106; 47_call_return.md R190 to R192; 60_exceptions.md R228). -/

namespace Sys2Proof.Machine

open State Rules

variable {i : Instr} {s t : State} {a : Operand} {v : Word} {rest : List Word} {reason : FaultReason}

/-! ## The meanings (R190 to R192) -/

/-- CALL with a readable operand is left with the check of the stack's room for the return address (R190). -/
theorem exec_call (ha : s.value? a = some v) :
    exec (.call a) s = s.pushing (s.pc + 2) fun t => .next ((t.setPc v).traceMove 1) :=
  source_some ha _

/-- CALL with room commits the return address, the target and the greater depth (R190). -/
theorem exec_call_of_hasRoom (ha : s.value? a = some v) (hr : HasRoom s) :
    exec (.call a) s = .next { s with stack := (s.pc + 2) :: s.stack, pc := v, traceDepth := s.traceDepth + 1 } :=
  (exec_call ha).trans (pushing_of_not_full (stackFull_of_hasRoom hr))

/-- CALL on a full stack reports the return address it could not push (R190). -/
theorem exec_call_of_full (ha : s.value? a = some v) (hf : s.stackFull = true) :
    exec (.call a) s = .next (s.raiseFault .stackOverflow (s.pc + 2)) :=
  (exec_call ha).trans (pushing_of_full hf)

/-- RET jumps to the top entry of a stack that has one (R191). -/
theorem exec_ret_cons (h : s.stack = v :: rest) :
    exec .ret s = .next { s with stack := rest, pc := v, traceDepth := s.traceDepth - 1 } := by
  have hp : s.pop? = some (v, { s with stack := rest }) := by rw [pop?, h]
  simp only [exec, execRet, hp]
  rfl

/-- RET on an empty stack is a HALT (R192). -/
theorem exec_ret_nil (h : s.stack = []) : exec .ret s = exec .halt s := by
  have hp : s.pop? = none := by rw [pop?, h]
  simp only [exec, execRet, hp]
  rfl

/-- Settles O32: the entry CALL left on top is the one RET takes, and the two moves of `trace_depth` cancel. -/
theorem callThenRetReturnsAfterTheCall : Obligations.CallThenRetReturnsAfterTheCall := by
  intro s t t' a v ha hr ht hstack hdepth
  obtain rfl : { s with stack := (s.pc + 2) :: s.stack, pc := v, traceDepth := s.traceDepth + 1 } = t := by
    simpa [exec_call_of_hasRoom ha hr] using ht
  have hback : t'.traceDepth - 1 = s.traceDepth := by rw [hdepth]; exact Int.add_sub_cancel _ _
  exact ⟨_, exec_ret_cons hstack, rfl, rfl, hback, rfl⟩

/-! ## The moves of `trace_depth` (R228) -/

theorem Effect.traceDepth_call (h : Effect (.call a) s t) : t.traceDepth = s.traceDepth + 1 := by
  cases h with
  | call => rfl
  | write _ _ _ _ htarget => cases htarget

theorem Effect.traceDepth_ret (h : Effect .ret s t) (hs : s.stack ≠ []) : t.traceDepth = s.traceDepth - 1 := by
  cases h with
  | retPop => rfl
  | retHalt _ hnil => exact absurd hnil hs
  | write _ _ _ _ htarget => cases htarget

/-- No effect but that of CALL and of a RET that pops moves `trace_depth`. -/
theorem Effect.traceDepth_eq (h : Effect i s t) (hcall : ∀ a, i ≠ .call a) (hret : i = .ret → s.stack = []) :
    t.traceDepth = s.traceDepth := by
  cases h with
  | call _ a => exact absurd rfl (hcall a)
  | retPop _ v rest hs => rw [hret rfl] at hs; cases hs
  | _ => rfl

/-- RET raises no fault of its own: it has no operand and pushes nothing. -/
theorem not_ownFault_ret : ¬ OwnFault .ret s reason := by
  intro h
  cases h with
  | operand _ _ p hp => cases hp

/-- Settles O29: an effect moves the depth by its instruction, and a fault, which RET cannot raise, leaves it. -/
theorem traceDepthFollowsCallAndRet : Obligations.TraceDepthFollowsCallAndRet := by
  intro s t h
  obtain ⟨hr, ⟨i, u, hf, hu, rfl⟩ | ⟨reason, raw, hf, rfl⟩⟩ := step_cases h
  · simp only [traced_run, traced_traceDepth, hf, Except.ok.injEq]
    rcases exec_ends hu with he | ⟨reason, raw, hown, rfl⟩
    · refine ⟨?_, ?_, fun hcall hret => ?_⟩
      · rintro a rfl -
        exact he.traceDepth_call
      · rintro rfl hs
        exact he.traceDepth_ret hs
      · exact he.traceDepth_eq (fun a hi => he.run_ne_faulted hr (hcall a hi)) hret
    · refine ⟨fun _ _ hrun => absurd rfl hrun, ?_, fun _ _ => rfl⟩
      rintro rfl
      exact absurd hown not_ownFault_ret
  · rw [hf]
    exact ⟨nofun, nofun, fun _ _ => rfl⟩

end Sys2Proof.Machine

namespace Sys2Proof.Rules

open Sys2Proof Sys2Proof.Machine

/-- Settles O53: the format is F1 with a read operand; room and a reached capacity are the two ends of the check. -/
theorem callPushesNextAndJumps : Obligations.CallPushesNextAndJumps :=
  ⟨formatF1_of_operands (fun _ => rfl) fun _ => rfl,
    fun _ _ _ ha => ⟨exec_call_of_hasRoom ha, fun hc => exec_call_of_full ha (State.stackFull_of_capacity_eq hc)⟩⟩

/-- Settles O54: the format is F0; the stack has a top entry, or is empty and RET halts. -/
theorem retPopsThePcOrHalts : Obligations.RetPopsThePcOrHalts :=
  ⟨formatF0_of_encode rfl rfl, fun s => ⟨fun _ _ => exec_ret_cons, fun hs => (exec_ret_nil hs).trans (haltEndsTheRun.2 s)⟩⟩

end Sys2Proof.Rules
end

section
/-! SUPPORT. OUT, the faults of a step, the loader's checks and the trace record of a step (48_io.md R200; 60_exceptions.md R210,
R211, R216, R228; 70_reset_and_hazards.md R241, R242). -/

namespace Sys2Proof.Machine

open State

variable {i : Instr} {s t : State} {a : Operand} {v raw : Word} {reason : FaultReason} {image : List Byte} {e : LoadError}

/-! ## OUT (R200) -/

/-- OUT commits the emitted Word (R200). -/
theorem exec_out (ha : s.value? a = some v) :
    exec (.out a) s = .next { s with output := s.output ++ [v], pc := s.pc + 2 } :=
  source_some ha _

/-! ## The faults of a step (R210, R211, R216) -/

/-- The two faults a fetch raises (40_execution_engine.md R101, R102). -/
theorem fetchInstr_error_reason {m : Memory} {p : Word} (h : fetchInstr m p = .error (reason, raw)) :
    reason = .unknownOpcode ∨ reason = .fetchOutOfRange := by
  cases hd : decode (fetchWords m p) with
  | ok r => rw [fetchInstr_of_decode hd] at h; cases h
  | error e =>
    rw [fetchInstr_of_error hd] at h
    cases e with
    | unknownOpcode => cases h; exact .inl rfl
    | truncated => cases h; exact .inr rfl

/-- A state left Faulted has committed nothing. -/
theorem State.committed_of_faulted (h : t.run = .faulted) : t.committed = false := by rw [committed, h]

/-- A step that ends Faulted raised the fault of its fetch or of its instruction, and did nothing else. -/
theorem step_faulted (h : step s = .next t) (ht : t.run = .faulted) :
    ∃ reason raw, t = s.raiseFault reason raw ∧
      (fetchInstr s.mem s.pc = .error (reason, raw) ∨ ∃ i, fetchInstr s.mem s.pc = .ok i ∧ OwnFault i s reason) := by
  obtain ⟨hr, ⟨i, u, hf, hu, rfl⟩ | ⟨reason, raw, hf, rfl⟩⟩ := step_cases h
  · rw [traced_run] at ht
    rw [traced_of_not_committed (committed_of_faulted ht)]
    rcases exec_ends hu with he | ⟨reason, raw, hown, rfl⟩
    · exact absurd ht (he.run_ne_faulted hr)
    · exact ⟨reason, raw, rfl, .inr ⟨i, hf, hown⟩⟩
  · exact ⟨reason, raw, rfl, .inl hf⟩

/-- No step follows a state that is not Running (40_execution_engine.md R108). -/
theorem step_ne_next (h : s.run ≠ .running) (u : State) : step s ≠ .next u := fun hs => h (step_cases hs).1

/-- Settles O15: the step did nothing but raise its fault, and the state it left is not Running. -/
theorem faultsArePreciseAndTerminal : Obligations.FaultsArePreciseAndTerminal := by
  intro s t h ht
  refine ⟨?_, step_ne_next (by simp [ht])⟩
  obtain ⟨reason, raw, rfl, hf | ⟨i, -, hown⟩⟩ := step_faulted h ht
  · exact ⟨reason, raw, fetchInstr_error_ne_none hf, rfl⟩
  · exact ⟨reason, raw, hown.reason_ne_none, rfl⟩

/-- Only PUSH and CALL overflow the stack, and only a full one (R216). -/
theorem OwnFault.stackOverflow (h : OwnFault i s .stackOverflow) :
    (∃ a, i = .push a ∨ i = .call a) ∧ s.stackFull = true := by
  cases h with
  | push _ a hfull => exact ⟨⟨a, .inl rfl⟩, hfull⟩
  | call _ a hfull => exact ⟨⟨a, .inr rfl⟩, hfull⟩

/-- Settles O34: no fetch overflows the stack, and of the instructions PUSH and CALL on a full one. -/
theorem stackOverflowNeedsAFullStack : Obligations.StackOverflowNeedsAFullStack := by
  intro s t h ht hreason
  obtain ⟨reason, raw, rfl, hcause⟩ := step_faulted h ht
  obtain rfl : reason = .stackOverflow := hreason
  rcases hcause with hf | ⟨i, hf, hown⟩
  · rcases fetchInstr_error_reason hf with hne | hne <;> cases hne
  · obtain ⟨⟨a, hi⟩, hfull⟩ := hown.stackOverflow
    exact ⟨⟨a, by rw [hf]; exact hi.imp (congrArg _) (congrArg _)⟩, stackFull_iff.mp hfull⟩

/-! ## The loader (R241, R242) -/

theorem loadImage_of_large (h : Config.memBytes < image.length) : loadImage image = .error .tooLarge := if_pos h

theorem loadImage_of_odd (hle : image.length ≤ Config.memBytes) (h : image.length % 2 = 1) :
    loadImage image = .error .oddLength := by
  rw [loadImage, if_neg (Nat.not_lt.mpr hle), if_pos (by omega)]

theorem loadImage_of_empty (h : image.length = 0) : loadImage image = .error .zeroWords := by
  rw [List.length_eq_zero_iff.mp h]; rfl

theorem loadImage_of_words (hle : image.length ≤ Config.memBytes) (heven : image.length % 2 = 0) (h0 : image.length ≠ 0) :
    loadImage image = .ok (image.length / 2, .ofBytes 0 image) := by
  rw [loadImage, if_neg (Nat.not_lt.mpr hle), if_neg (not_not_intro heven), if_neg h0]

/-- An image that is too large, of odd length or empty is rejected, whichever of its errors is named (log 16). -/
theorem exists_loadImage_error (h : Config.memBytes < image.length ∨ image.length % 2 = 1 ∨ image.length = 0) :
    ∃ e, loadImage image = .error e := by
  rcases Nat.lt_or_ge Config.memBytes image.length with hlarge | hle
  · exact ⟨_, loadImage_of_large hlarge⟩
  · rcases h with hlarge | hodd | hempty
    · exact absurd hlarge (Nat.not_lt.mpr hle)
    · exact ⟨_, loadImage_of_odd hle hodd⟩
    · exact ⟨_, loadImage_of_empty hempty⟩

/-- A rejected load starts no run (R241). -/
theorem boot_of_load_error (h : loadImage image = .error e) : s.boot image = .error e := by rw [boot, h]

/-- A run starts from reset with the loaded memory (R242). -/
theorem boot_of_load_ok {n : Nat} {m : Memory} (h : loadImage image = .ok (n, m)) :
    s.boot image = .ok { s.applyReset with mem := m } := by rw [boot, h]

/-- Settles O25: the loader's checks one by one, and the Words of the memory it fills. -/
theorem loaderFillsMemoryFromTheImage : Obligations.LoaderFillsMemoryFromTheImage := by
  refine fun image => ⟨fun h _ => loadImage_of_large h, loadImage_of_odd, loadImage_of_empty, fun h s => ?_,
    fun hle heven h0 => ?_⟩
  · exact (exists_loadImage_error h).imp fun _ => boot_of_load_error
  · have hload := loadImage_of_words hle heven h0
    exact ⟨_, hload, fun _ => boot_of_load_ok hload, fun k _ => readWord_ofBytes hle k,
      fun k hk => readWord_ofBytes_past hle (by omega)⟩

/-! ## The trace record of a step (R228) -/

/-- A meaning writes no trace record; the step adds it. -/
theorem Effect.trace_eq (h : Effect i s t) : t.trace = s.trace := by cases h <;> rfl

theorem exec_trace_eq (h : exec i s = .next t) : t.trace = s.trace := by
  rcases exec_ends h with he | ⟨reason, raw, -, rfl⟩
  · exact he.trace_eq
  · rfl

/-- A step committed when the run goes on without waiting, or halted (log 12). -/
theorem State.committed_iff : t.committed = true ↔ t.run = .running ∧ t.inWait = false ∨ t.run = .halted := by
  cases h : t.run <;> simp [committed, h]

/-- Settles O28: the meaning leaves the trace, and the step adds the record of a committed instruction while tracing. -/
theorem committedStepsLeaveOneTraceRecord : Obligations.CommittedStepsLeaveOneTraceRecord := by
  intro s t i hr hf h
  rw [step_of_fetch hr hf] at h
  obtain ⟨u, hu, rfl⟩ := traced_eq_next h
  rw [traced_trace, traced_run, traced_inWait, exec_trace_eq hu, traceRecord]
  exact if_congr (by rw [Bool.and_eq_true, committed_iff]) rfl rfl

end Sys2Proof.Machine

namespace Sys2Proof.Rules

open Sys2Proof Sys2Proof.Machine

/-- Settles O55: the format is F1 with a read operand, and OUT commits the Word it emitted. -/
theorem outEmitsTheWholeWord : Obligations.OutEmitsTheWholeWord :=
  ⟨formatF1_of_operands (fun _ => rfl) fun _ => rfl, fun _ _ _ => exec_out⟩

end Sys2Proof.Rules
end
